-- ==== Sys2Proof/Word.lean ====
section
/-! DEFINITION. The word types of the block: a register word is 32 bits (10_state.md R21), a byte is 8 bits
(00_scope.md R9), a pixel is one bit (20_memory.md R43). Every quantity is unsigned (R9). -/

namespace Sys2Proof

/-- A register word, and each of the two words of a request (10_state.md R21, 30_encoding.md R71). -/
abbrev Word := BitVec 32

/-- A byte: of PBUF, of a command or data sequence, of a bus transaction (00_scope.md R9). -/
abbrev Byte := BitVec 8

/-- A pixel, `0` (off, `false`) or `1` (on, `true`): an FB cell holds exactly one bit (20_memory.md R43). -/
abbrev Pixel := Bool

end Sys2Proof
end

