-- ==== Sys2Proof/Config.lean ====
section
/-! DEFINITION. The fixed configuration of the block (00_scope.md R7, R8: constant for its whole life, written by no
request, not state), and the free values of the model, each an opaque constant with no body. -/

namespace Sys2Proof

/-- The transport's answer to one bus primitive (00_scope.md R12). -/
inductive Answer where
  | ok
  | fail
  deriving DecidableEq, Repr, Inhabited

/-- The datapath working registers (10_state.md R30): hidden, holding nothing between requests. -/
structure Datapath where
  /-- the 9-bit pack shift register `S` (42_bit_unpacker.md R162) -/
  packShift   : BitVec 9
  /-- the page counter `p` of the reorder engines (43_render.md R178, R181) -/
  page        : Nat
  /-- the column counter `x` of the reorder engines -/
  column      : Nat
  /-- the chunk offset of the chunked write primitive (41_sequencer.md R142) -/
  chunkOffset : Nat
  deriving DecidableEq, Repr, Inhabited

/-- `OPC`, the map from the name of a wire opcode to its byte (40_command_vocabulary.md R102): a configuration record
with the names of R103 to R122. -/
structure Opc where
  displayOff         : Byte
  setMemoryMode      : Byte
  setHighColumn      : Byte
  setLowColumn       : Byte
  setContrast        : Byte
  segmentRemap       : Byte
  normalDisplay      : Byte
  setMultiplex       : Byte
  displayAllOnResume : Byte
  setDisplayOffset   : Byte
  setClockDiv        : Byte
  setPrecharge       : Byte
  setComPins         : Byte
  setVcomDetect      : Byte
  chargePump         : Byte
  displayOn          : Byte
  setStartLine       : Byte
  comScanDec         : Byte
  columnAddr         : Byte
  pageAddr           : Byte
  deriving DecidableEq, Repr

/-- The default opcode bytes of R103 to R122. PRESUMED: the spec marks every one "from general knowledge, not in
source" (93_implementation_defined.md G1); log entry 1. -/
def Opc.defaults : Opc where
  displayOff         := 0xAE
  setMemoryMode      := 0x20
  setHighColumn      := 0x10
  setLowColumn       := 0x00
  setContrast        := 0x81
  segmentRemap       := 0xA1
  normalDisplay      := 0xA6
  setMultiplex       := 0xA8
  displayAllOnResume := 0xA4
  setDisplayOffset   := 0xD3
  setClockDiv        := 0xD5
  setPrecharge       := 0xD9
  setComPins         := 0xDA
  setVcomDetect      := 0xDB
  chargePump         := 0x8D
  displayOn          := 0xAF
  setStartLine       := 0x40
  comScanDec         := 0xC8
  columnAddr         := 0x21
  pageAddr           := 0x22

namespace Config

/-- The `OPC` this machine is built with: R102 lets a model instantiate the defaults. Tables and byte groups are
functions of an `Opc`, so that a statement can hold for every one. -/
def opc : Opc := Opc.defaults

/-- `CHUNK_MAX`, the payload bytes of one transaction, mode prefix not counted (R7, 90_conflicts.md C1). -/
def chunkMax : Nat := 32

/-- `PREFIX_CMD`, the mode prefix of a command transaction (R7). -/
def prefixCmd : Byte := 0x00

/-- `PREFIX_DATA`, the mode prefix of a data transaction (R7). -/
def prefixData : Byte := 0x40

/-- `PAGE_SELECT_BASE`, the first byte of the page-select command for page 0 (R7, R123). -/
def pageSelectBase : Byte := 0xB0

/-- `PAGE_COL_LO` (R7, R124). -/
def pageColLo : Byte := 0x02

/-- `PAGE_COL_HI` (R7, R124). -/
def pageColHi : Byte := 0x10

/-- `PBUF_SIZE`, the bytes of the payload buffer (R7, 20_memory.md R41). -/
def pbufSize : Nat := 65536

/-- FREE VALUE. The transport's answer to a bus primitive when no answer has been supplied: a draw with no law
(60_exceptions.md R205). The argument counts the free values taken so far. Log entry 2. -/
opaque transportAnswer : Nat → Answer

/-- FREE VALUE. What the datapath registers hold after a request: any value, never observable (10_state.md R30, R34;
93_implementation_defined.md I20). Log entry 3. -/
opaque datapathAfter : Nat → Datapath

/-- FREE VALUE. The one-byte operand `n - 1` of a range command for a count `n` outside 1..256, for which R121, R122
and R187 state no byte. Log entry 4. -/
opaque unstatedOperand : Nat → Byte

end Config

end Sys2Proof
end

