-- ==== Sys2Proof/Syntax.lean ====
section
/-! DEFINITION. The operations of the block, one constructor for each row of the opcode table: the six host requests
(30_encoding.md R74), the three reserved-OP rows (R81), the twenty named wire opcodes (40_command_vocabulary.md R103 to
R122), the page-select group (R123, R124) and the two mode prefixes (R83). -/

namespace Sys2Proof

/-- The chipset variant (00_scope.md R3): A is paged addressing, B is linear addressing. -/
inductive Variant where
  | A
  | B
  deriving DecidableEq, Repr

/-- One row of the opcode table, with its operands as R75 assembles them. -/
inductive Instr where
  /-- INIT: `width` is `WIDTH` itself, 1..256 (R75, R76). -/
  | init (var : Variant) (width : BitVec 9) (height : BitVec 16) (bus : BitVec 8) (addr : BitVec 7) (nextra : BitVec 16)
  /-- WRCMD (R77). -/
  | wrcmd (len : BitVec 16)
  /-- WRDATA (R77). -/
  | wrdata (len : BitVec 16)
  /-- RENDER: `fbw` is the bitmap's width itself, 1..256 (R75, R78). -/
  | render (fbw : BitVec 9) (fbh : BitVec 16) (mode1 : Bool)
  /-- CLOSE (R79). -/
  | close
  /-- PACK (R80). -/
  | pack (col : BitVec 16) (pg : BitVec 8)
  /-- `OP = 0x0` (R81 (a)); `hi` is `OPW[31:4]`. -/
  | reservedOp0 (hi : BitVec 28) (arg : Word)
  /-- `OP = 0x7` (R81 (a)). -/
  | reservedOp7 (hi : BitVec 28) (arg : Word)
  /-- `OP` in `0x8..0xF` (R81 (a)). -/
  | reservedOp8F (op : BitVec 4) (hi : BitVec 28) (arg : Word)
  -- the named wire opcodes, R103 to R122
  | displayOff
  | setMemoryMode
  | setHighColumn
  | setLowColumn
  | setContrast
  | segmentRemap
  | normalDisplay
  | setMultiplex
  | displayAllOnResume
  | setDisplayOffset
  | setClockDiv
  | setPrecharge
  | setComPins
  | setVcomDetect
  | chargePump
  | displayOn
  | setStartLine
  | comScanDec
  | columnAddr
  | pageAddr
  /-- The page-select byte `0xB0 + p` (R123). -/
  | pageSelect (p : BitVec 4)
  /-- `PAGE_COL_LO`, the byte after the page-select byte (R124). -/
  | pageColLo
  /-- `PAGE_COL_HI`, the byte after `PAGE_COL_LO` (R124). -/
  | pageColHi
  /-- `PREFIX_CMD`, byte 0 of a command transaction (R83). -/
  | prefixCmd
  /-- `PREFIX_DATA`, byte 0 of a data transaction (R83). -/
  | prefixData
  deriving DecidableEq, Repr

/-- The place of a wire byte, which alone tells equal bytes apart (40_command_vocabulary.md R106: "The two are told
apart by position alone"). -/
inductive WirePos where
  /-- byte 0 of a transaction: the mode prefix (20_memory.md R50) -/
  | first
  /-- an opcode's place inside a command transaction -/
  | command
  /-- the byte after a page-select byte (R124) -/
  | pageColLo
  /-- the byte after that one (R124) -/
  | pageColHi
  deriving DecidableEq, Repr

/-- What an instruction is encoded as: the two words of a host request (R71), or one wire byte at its place (R83,
R102). -/
inductive Code where
  | request (opw arg : Word)
  | wire (pos : WirePos) (b : Byte)
  deriving DecidableEq, Repr

end Sys2Proof
end

