-- ==== Sys2Proof/WellFormed.lean ====
section
/-! DEFINITION. The instructions that have an encoding: the ranges an operand's type does not already say. -/

namespace Sys2Proof

/-- A width that can be encoded as `width - 1` in 8 bits: 1..256 (30_encoding.md R75). -/
def widthEncodable (w : BitVec 9) : Bool :=
  decide (1 ≤ w.toNat ∧ w.toNat ≤ 256)

/-- An `OP` value in `0x8..0xF` (30_encoding.md R74, R81 (a)). -/
def opInUpperHalf (op : BitVec 4) : Bool :=
  decide (8 ≤ op.toNat)

/-- The well-formed instructions: INIT and RENDER with an encodable width, and the last reserved row with an `OP` in
its range. Every other operand is bounded by its type. -/
def Instr.wf : Instr → Bool
  | .init _ width _ _ _ _ => widthEncodable width
  | .render fbw _ _ => widthEncodable fbw
  | .reservedOp8F op _ _ => opInUpperHalf op
  | .wrcmd _ | .wrdata _ | .close | .pack _ _ | .reservedOp0 _ _ | .reservedOp7 _ _ => true
  | .displayOff | .setMemoryMode | .setHighColumn | .setLowColumn | .setContrast | .segmentRemap | .normalDisplay
  | .setMultiplex | .displayAllOnResume | .setDisplayOffset | .setClockDiv | .setPrecharge | .setComPins
  | .setVcomDetect | .chargePump | .displayOn | .setStartLine | .comScanDec | .columnAddr | .pageAddr => true
  | .pageSelect _ | .pageColLo | .pageColHi | .prefixCmd | .prefixData => true

end Sys2Proof
end

