-- ==== Sys2Proof/Decode.lean ====
section
/-! DEFINITION. Decoding, total on every pair of request words (30_encoding.md R82) and on every wire byte at every
place, rejecting by name; and the encoder, written from the same tables (R72 to R80, 40_command_vocabulary.md R102). -/

namespace Sys2Proof

/-- Why a code decodes to no instruction. -/
inductive DecodeError where
  /-- a legal `OP` with a must-be-zero field that is nonzero (R81 (b)): the request is illegal, `CAUSE_RSV_FIELD` -/
  | reservedField
  /-- byte 0 of a transaction is no mode prefix: "The block emits no other first byte" (R83) -/
  | notAModePrefix
  /-- no opcode of the block's own vocabulary (40_command_vocabulary.md R125) -/
  | notAnOpcode
  /-- not the fixed byte of the page-select command at this place (R124) -/
  | notAPageColumnByte
  deriving DecidableEq, Repr

/-! ## The fields of the request words (R72, R73) -/

/-- `OPW[3:0]`. -/
def opField (opw : Word) : BitVec 4 := opw.extractLsb' 0 4

/-- `OPW[4]`. -/
def varField (opw : Word) : BitVec 1 := opw.extractLsb' 4 1

/-- `OPW[7:5]`. -/
def rsvField (opw : Word) : BitVec 3 := opw.extractLsb' 5 3

/-- `OPW[15:8]`. -/
def a8Field (opw : Word) : BitVec 8 := opw.extractLsb' 8 8

/-- `OPW[31:16]`. -/
def a16Field (opw : Word) : BitVec 16 := opw.extractLsb' 16 16

/-- `OPW[31:4]`, the bits a reserved `OP` leaves free (R81). -/
def hiField (opw : Word) : BitVec 28 := opw.extractLsb' 4 28

/-- `ARG[7:0]`. -/
def busField (arg : Word) : BitVec 8 := arg.extractLsb' 0 8

/-- `ARG[14:8]`. -/
def addrField (arg : Word) : BitVec 7 := arg.extractLsb' 8 7

/-- `ARG[15]`. -/
def arg15Field (arg : Word) : BitVec 1 := arg.extractLsb' 15 1

/-- `ARG[31:16]`. -/
def nextraField (arg : Word) : BitVec 16 := arg.extractLsb' 16 16

/-- `ARG[0]`. -/
def mode1Field (arg : Word) : BitVec 1 := arg.extractLsb' 0 1

/-- `ARG[31:1]`. -/
def argHiField (arg : Word) : BitVec 31 := arg.extractLsb' 1 31

/-- `VAR`: 0 is Variant A, 1 is Variant B (R72). -/
def variantOfBit (v : BitVec 1) : Variant := if v = 0#1 then .A else .B

/-- The `VAR` bit of a variant. -/
def Variant.bit : Variant → BitVec 1
  | .A => 0#1
  | .B => 1#1

/-- A width from its encoding: `zext_9(a8) + 1` (R75). -/
def widthOfField (a8 : BitVec 8) : BitVec 9 := a8.setWidth 9 + 1#9

/-- The encoding `width - 1` of a width 1..256 (R75). -/
def fieldOfWidth (w : BitVec 9) : BitVec 8 := (w - 1#9).setWidth 8

/-- The fields that R73 marks `0` are zero for this `OP` (R81 (b)). -/
def mustBeZeroOk (opw arg : Word) : Bool :=
  rsvField opw = 0#3 &&
    (if opField opw = 0x1#4 then arg15Field arg = 0#1
     else if opField opw = 0x2#4 then varField opw = 0#1 && a8Field opw = 0#8 && arg = 0#32
     else if opField opw = 0x3#4 then varField opw = 0#1 && a8Field opw = 0#8 && arg = 0#32
     else if opField opw = 0x4#4 then varField opw = 0#1 && argHiField arg = 0#31
     else if opField opw = 0x5#4 then varField opw = 0#1 && a8Field opw = 0#8 && a16Field opw = 0#16 && arg = 0#32
     else varField opw = 0#1 && arg = 0#32)

/-- Decoding of a request's words: R81 (a) before R81 (b), then the operands of R75. -/
def decodeRequest (opw arg : Word) : Except DecodeError Instr :=
  if opField opw = 0x0#4 then .ok (.reservedOp0 (hiField opw) arg)
  else if opField opw = 0x7#4 then .ok (.reservedOp7 (hiField opw) arg)
  else if 8 ≤ (opField opw).toNat then .ok (.reservedOp8F (opField opw) (hiField opw) arg)
  else if mustBeZeroOk opw arg = false then .error .reservedField
  else if opField opw = 0x1#4 then
    .ok (.init (variantOfBit (varField opw)) (widthOfField (a8Field opw)) (a16Field opw)
      (busField arg) (addrField arg) (nextraField arg))
  else if opField opw = 0x2#4 then .ok (.wrcmd (a16Field opw))
  else if opField opw = 0x3#4 then .ok (.wrdata (a16Field opw))
  else if opField opw = 0x4#4 then
    .ok (.render (widthOfField (a8Field opw)) (a16Field opw) (mode1Field arg = 1#1))
  else if opField opw = 0x5#4 then .ok .close
  else .ok (.pack (a16Field opw) (a8Field opw))

/-- The opcodes of the block's own vocabulary with their instructions, in the order of R103 to R122. -/
def opcodeRows (o : Opc) : List (Byte × Instr) :=
  [(o.displayOff, .displayOff), (o.setMemoryMode, .setMemoryMode), (o.setHighColumn, .setHighColumn),
   (o.setLowColumn, .setLowColumn), (o.setContrast, .setContrast), (o.segmentRemap, .segmentRemap),
   (o.normalDisplay, .normalDisplay), (o.setMultiplex, .setMultiplex),
   (o.displayAllOnResume, .displayAllOnResume), (o.setDisplayOffset, .setDisplayOffset),
   (o.setClockDiv, .setClockDiv), (o.setPrecharge, .setPrecharge), (o.setComPins, .setComPins),
   (o.setVcomDetect, .setVcomDetect), (o.chargePump, .chargePump), (o.displayOn, .displayOn)] ++
  [(o.setStartLine, .setStartLine), (o.comScanDec, .comScanDec), (o.columnAddr, .columnAddr),
   (o.pageAddr, .pageAddr)]

/-- The instruction of the first row with this byte. -/
def lookupOpcode (b : Byte) : List (Byte × Instr) → Option Instr
  | [] => none
  | (k, i) :: rows => if k = b then some i else lookupOpcode b rows

/-- An opcode of a command transaction: a named opcode (R102), or a page-select byte `0xB0 + p`, `p` in 0..15 (R123). -/
def decodeOpcode (b : Byte) : Except DecodeError Instr :=
  match lookupOpcode b (opcodeRows Config.opc) with
  | some i => .ok i
  | none =>
    if b.extractLsb' 4 4 = Config.pageSelectBase.extractLsb' 4 4 then .ok (.pageSelect (b.extractLsb' 0 4))
    else .error .notAnOpcode

/-- Decoding of one wire byte at its place (R83, R106). -/
def decodeWire (pos : WirePos) (b : Byte) : Except DecodeError Instr :=
  match pos with
  | .first =>
    if b = Config.prefixCmd then .ok .prefixCmd
    else if b = Config.prefixData then .ok .prefixData
    else .error .notAModePrefix
  | .command => decodeOpcode b
  | .pageColLo => if b = Config.pageColLo then .ok .pageColLo else .error .notAPageColumnByte
  | .pageColHi => if b = Config.pageColHi then .ok .pageColHi else .error .notAPageColumnByte

/-- Decoding, total on every code. -/
def decode : Code → Except DecodeError Instr
  | .request opw arg => decodeRequest opw arg
  | .wire pos b => decodeWire pos b

/-! ## The encoder -/

/-- The code of an instruction: the patterns of R76 to R80 for the requests, the bytes of R102 to R124 and R83 for the
wire. -/
def encode : Instr → Code
  | .init var width height bus addr nextra =>
    .request (height ++ fieldOfWidth width ++ 0#3 ++ var.bit ++ 0x1#4) (nextra ++ 0#1 ++ addr ++ bus)
  | .wrcmd len => .request (len ++ 0#8 ++ 0#3 ++ 0#1 ++ 0x2#4) 0#32
  | .wrdata len => .request (len ++ 0#8 ++ 0#3 ++ 0#1 ++ 0x3#4) 0#32
  | .render fbw fbh mode1 =>
    .request (fbh ++ fieldOfWidth fbw ++ 0#3 ++ 0#1 ++ 0x4#4) (0#31 ++ BitVec.ofBool mode1)
  | .close => .request (0#16 ++ 0#8 ++ 0#3 ++ 0#1 ++ 0x5#4) 0#32
  | .pack col pg => .request (col ++ pg ++ 0#3 ++ 0#1 ++ 0x6#4) 0#32
  | .reservedOp0 hi arg => .request (hi ++ 0x0#4) arg
  | .reservedOp7 hi arg => .request (hi ++ 0x7#4) arg
  | .reservedOp8F op hi arg => .request (hi ++ op) arg
  | .displayOff => .wire .command Config.opc.displayOff
  | .setMemoryMode => .wire .command Config.opc.setMemoryMode
  | .setHighColumn => .wire .command Config.opc.setHighColumn
  | .setLowColumn => .wire .command Config.opc.setLowColumn
  | .setContrast => .wire .command Config.opc.setContrast
  | .segmentRemap => .wire .command Config.opc.segmentRemap
  | .normalDisplay => .wire .command Config.opc.normalDisplay
  | .setMultiplex => .wire .command Config.opc.setMultiplex
  | .displayAllOnResume => .wire .command Config.opc.displayAllOnResume
  | .setDisplayOffset => .wire .command Config.opc.setDisplayOffset
  | .setClockDiv => .wire .command Config.opc.setClockDiv
  | .setPrecharge => .wire .command Config.opc.setPrecharge
  | .setComPins => .wire .command Config.opc.setComPins
  | .setVcomDetect => .wire .command Config.opc.setVcomDetect
  | .chargePump => .wire .command Config.opc.chargePump
  | .displayOn => .wire .command Config.opc.displayOn
  | .setStartLine => .wire .command Config.opc.setStartLine
  | .comScanDec => .wire .command Config.opc.comScanDec
  | .columnAddr => .wire .command Config.opc.columnAddr
  | .pageAddr => .wire .command Config.opc.pageAddr
  | .pageSelect p => .wire .command (Config.pageSelectBase + p.setWidth 8)
  | .pageColLo => .wire .pageColLo Config.pageColLo
  | .pageColHi => .wire .pageColHi Config.pageColHi
  | .prefixCmd => .wire .first Config.prefixCmd
  | .prefixData => .wire .first Config.prefixData

/-! ## The opcode table's numbering of bits -/

/-- The code of a table word: bits 31..0 are `OPW`, bits 63..32 are `ARG`. A word of at most 8 bits is first read as
a wire byte, at the place its value names: an opcode's place if it is an opcode, else the place after a page-select
byte. A byte that is neither is the low byte of an `OPW`. `0x00`, `0x10` and `0x40` are each the byte of two rows and are
read at the opcode's place (log entry 5). -/
def tableCode (nbits w : Nat) : Code :=
  if nbits ≤ 8 then
    match decodeOpcode (BitVec.ofNat 8 w) with
    | .ok _ => .wire .command (BitVec.ofNat 8 w)
    | .error _ =>
      if BitVec.ofNat 8 w = Config.pageColLo then .wire .pageColLo (BitVec.ofNat 8 w)
      else .request (BitVec.ofNat 32 w) 0#32
  else .request (BitVec.ofNat 32 w) (BitVec.ofNat 32 (w / 2 ^ 32))

/-- What the decoder reads from an instruction whose bits are `w`, numbered as the opcode table numbers them. -/
def decodeTableWord (nbits w : Nat) : Option Instr :=
  match decode (tableCode nbits w) with
  | .ok i => some i
  | .error _ => none

end Sys2Proof
end

