-- ==== Sys2Proof/Machine/State.lean ====
section
/-! DEFINITION. The state of the block (10_state.md R15): the registers, the hidden state, the memories FB and PBUF and
the bus log; beside them the model's own fields, which stand for the agents outside the block (00_scope.md R14).
Reset (R34, 70_reset_and_hazards.md R231), and the reasons for which a step stops. -/

namespace Sys2Proof.Machine

/-- The life-cycle states (R16). -/
inductive LifeState where
  | uninit
  | initializing
  | ready
  | closed
  deriving DecidableEq, Repr

/-- One bus primitive with the transport's answer (20_memory.md R47). -/
inductive BusEvent where
  | opened (bus : BitVec 8) (addr : BitVec 7) (r : Answer)
  | write (t : List Byte) (r : Answer)
  | closed (r : Answer)
  deriving DecidableEq, Repr

/-- The two kinds of transaction, told apart by the mode prefix (20_memory.md R50). -/
inductive TxKind where
  | command
  | data
  deriving DecidableEq, Repr

/-- The sequencer's emission so far: the argument of the write call being made up (10_state.md R20: "Within a request,
the command sequencer walks a fixed emission order ... That position is hidden"). Log entry 6. -/
structure Staged where
  kind  : TxKind
  bytes : List Byte
  deriving DecidableEq, Repr

/-- Nothing staged. -/
def Staged.empty : Staged := ⟨.command, []⟩

/-- What happens next outside the block or at its sequencer: one move is one step (log entry 7). -/
inductive Move where
  /-- HOST writes a register (10_state.md R21, R28) -/
  | regWrite (offset : Nat) (v : Word)
  /-- HOST reads a register (R21, 60_exceptions.md R214) -/
  | regRead (offset : Nat)
  /-- HOST writes one pixel of FB (R214 "fill inputs") -/
  | fbWrite (index : Nat) (px : Pixel)
  /-- HOST reads one pixel of FB (20_memory.md R41) -/
  | fbRead (index : Nat)
  /-- HOST writes bytes of PBUF from an index up (30_encoding.md R86 `PB`) -/
  | pbufWrite (index : Nat) (bytes : List Byte)
  /-- HOST reads one byte of PBUF (20_memory.md R41) -/
  | pbufRead (index : Nat)
  /-- HOST writes 0 to `FB[0 .. WIDTH*HEIGHT)` (R86 `FBCLR`, R214 "blank canvas") -/
  | fbClear
  /-- HOST writes 1 to `FB[y*WIDTH + x]` (R86 `FBSET`) -/
  | fbSet (x y : Nat)
  /-- BUS: the transport's next answers, in order (R86 `BUS`) -/
  | answers (rs : List Answer)
  /-- the platform asserts reset, the block being idle (70_reset_and_hazards.md R231) -/
  | reset
  /-- SEQ emits one wire byte at its place (40_command_vocabulary.md R101) -/
  | emit (pos : WirePos) (b : Byte)
  deriving DecidableEq, Repr

/-- The whole state. -/
structure State where
  /-- `OPW`, offset `0x00` (R28) -/
  opw        : Word
  /-- `ARG`, offset `0x04` (R28) -/
  arg        : Word
  /-- `STATUS.STATE` (R16, R22) -/
  life       : LifeState
  /-- `STATUS.HANDLE_OPEN` (R22, R29) -/
  handleOpen : Bool
  /-- `STATUS.RESULT` (R22, 60_exceptions.md R201) -/
  result     : BitVec 4
  /-- `STATUS.CAUSE` (R22, 60_exceptions.md R202) -/
  cause      : BitVec 4
  /-- `CFG.VARIANT` (R25) -/
  variant    : Variant
  /-- `CFG.BUS_INDEX` (R25) -/
  busIndex   : BitVec 8
  /-- `CFG.DEV_ADDR` (R25) -/
  devAddr    : BitVec 7
  /-- `GEOM.WIDTH` (R24) -/
  width      : BitVec 16
  /-- `GEOM.HEIGHT` (R24) -/
  height     : BitVec 16
  /-- `PAGES.PAGES` (R24) -/
  pages      : BitVec 16
  /-- `PACKOUT[7:0]` (R26) -/
  packOut    : Byte
  /-- `TXCOUNT` (R27) -/
  txCount    : Word
  /-- the datapath working registers (R30) -/
  datapath   : Datapath
  /-- `FAULT`, a model-only flag of the spec (R31) -/
  fault      : Bool
  /-- the framebuffer FB: the written pixels by bit index, strictly rising (20_memory.md R43, R44) -/
  fb         : List (Nat × Pixel)
  /-- the payload buffer PBUF: the written bytes by index, strictly rising (20_memory.md R44, R46) -/
  pbuf       : List Host.Cell
  /-- the bus log, oldest event first (20_memory.md R47) -/
  log        : List BusEvent
  /-- the sequencer's emission so far (the model's form of R20's hidden position) -/
  staged     : Staged
  /-- MODEL'S OWN: the transport's answers still to come that have been supplied (R205) -/
  draws      : List Answer
  /-- MODEL'S OWN: the number of free values taken so far -/
  freeCount  : Nat
  /-- MODEL'S OWN: the moves still to come, the next one first -/
  moves      : List Move
  /-- MODEL'S OWN: the value the host's last read gave it (R214 "read state") -/
  readData   : Word
  deriving DecidableEq, Repr

/-- The state after reset (R34), with no move to come. -/
def State.reset : State where
  opw        := 0
  arg        := 0
  life       := .uninit
  handleOpen := false
  result     := 0
  cause      := 0
  variant    := .A
  busIndex   := 0
  devAddr    := 0
  width      := 0
  height     := 0
  pages      := 0
  packOut    := 0
  txCount    := 0
  datapath   := ⟨0, 0, 0, 0⟩
  fault      := false
  fb         := []
  pbuf       := []
  log        := []
  staged     := Staged.empty
  draws      := []
  freeCount  := 0
  moves      := []
  readData   := 0

/-- The reasons a step ends in a fault. -/
inductive Fault where
  /-- A read of an FB cell that the host never wrote (20_memory.md R44, 60_exceptions.md R210), raised by RENDER, PACK
  and the host's read of FB. `final` is the faulted state, `FAULT = 1`. Safe: the block gives the cell some value. -/
  | unwrittenFb (index : Nat) (final : State)
  /-- A read of a PBUF cell that the host never wrote (R44, R210), raised by INIT, WRCMD, WRDATA and the host's read of
  PBUF. `final` is the faulted state. Safe. -/
  | unwrittenPbuf (index : Nat) (final : State)
  /-- A host access to a PBUF index at or beyond `PBUF_SIZE`, where PBUF has no cell (20_memory.md R41). Safe. -/
  | noSuchPbufCell (index : Nat)
  deriving DecidableEq, Repr

/-- The reasons a step is refused. -/
inductive Refusal where
  /-- An instruction with no meaning yet. Raised by no arm of this model. Safe. -/
  | notModelled (mnemonic : String)
  /-- A host access to a register that is no whole aligned word: "has no meaning in this spec and is refused"
  (20_memory.md R54). Raised by a register move. Safe. -/
  | unalignedRegister (offset : Nat)
  /-- A sequencer move with a byte that is no element of the block's vocabulary at that place: "The block emits no other
  opcode of its own" (40_command_vocabulary.md R125). Raised by a sequencer move. Safe. -/
  | notInVocabulary (pos : WirePos) (b : Byte)
  deriving DecidableEq, Repr

/-- What a step ends in. -/
abbrev Result := Host.Outcome State Fault Refusal

end Sys2Proof.Machine
end

