-- ==== Sys2Proof/Machine/Flags.lean ====
section
/-! DEFINITION. The condition indications: the codes of `STATUS.RESULT` and `STATUS.CAUSE` (60_exceptions.md R201, R202),
the packing of the read-only registers (10_state.md R22, R24 to R27), and a register read (R21). -/

namespace Sys2Proof.Machine

/-- The errors a request can end in, each a pair of R202's table. -/
inductive Err where
  | state
  | geometry
  | size
  | mode
  | range
  | openFailed
  | writeCmd
  | writeData
  | closeFailed
  | rsvOp
  | rsvField
  deriving DecidableEq, Repr

/-- `STATUS.RESULT` of an error (R201). `OK` is 0. -/
def Err.result : Err → BitVec 4
  | .state | .geometry | .size | .mode | .range => 1
  | .openFailed => 2
  | .writeCmd | .writeData => 3
  | .closeFailed => 4
  | .rsvOp | .rsvField => 5

/-- `STATUS.CAUSE` of an error (R202). -/
def Err.cause : Err → BitVec 4
  | .state => 1
  | .geometry => 2
  | .size => 3
  | .mode => 4
  | .range => 5
  | .openFailed => 0
  | .writeCmd => 1
  | .writeData => 2
  | .closeFailed => 0
  | .rsvOp => 1
  | .rsvField => 2

/-- The pairs of `RESULT` and `CAUSE` that R202 lists: "No other pair is ever written". -/
def legalReport (result cause : BitVec 4) : Bool :=
  (result = 0 && cause = 0) || (result = 1 && 1 ≤ cause.toNat && cause.toNat ≤ 5) || (result = 2 && cause = 0) ||
    (result = 3 && (cause = 1 || cause = 2)) || (result = 4 && cause = 0) || (result = 5 && (cause = 1 || cause = 2))

/-- The numeric value of a life-cycle state (R16). -/
def LifeState.code : LifeState → BitVec 2
  | .uninit => 0
  | .initializing => 1
  | .ready => 2
  | .closed => 3

/-- `STATUS` (R22): bit 2 and bits 31..12 are reserved and read 0. -/
def statusWord (s : State) : Word :=
  0#20 ++ s.cause ++ s.result ++ BitVec.ofBool s.handleOpen ++ 0#1 ++ s.life.code

/-- The bit of `CFG.VARIANT` (R25). -/
def variantBit : Variant → BitVec 1
  | .A => 0
  | .B => 1

/-- `CFG` (R25). -/
def cfgWord (s : State) : Word :=
  0#9 ++ s.devAddr ++ s.busIndex ++ 0#7 ++ variantBit s.variant

/-- `GEOM` (R24). -/
def geomWord (s : State) : Word := s.height ++ s.width

/-- `PAGES` (R24). -/
def pagesWord (s : State) : Word := 0#16 ++ s.pages

/-- `PACKOUT` (R26). -/
def packOutWord (s : State) : Word := 0#24 ++ s.packOut

/-- The value of the register at a word-aligned offset; offsets `0x20` and above hold no register and read 0 (R21). -/
def readReg (offset : Nat) (s : State) : Word :=
  if offset = 0x00 then s.opw
  else if offset = 0x04 then s.arg
  else if offset = 0x08 then statusWord s
  else if offset = 0x0C then cfgWord s
  else if offset = 0x10 then geomWord s
  else if offset = 0x14 then pagesWord s
  else if offset = 0x18 then packOutWord s
  else if offset = 0x1C then s.txCount
  else 0

end Sys2Proof.Machine
end

