-- ==== Sys2Proof/Machine/Ops.lean ====
section
/-! DEFINITION. The shared operations: the memories (20_memory.md R43, R44, R46), the bus primitives (00_scope.md R12),
chunking and the write primitive (20_memory.md R51, 41_sequencer.md R142), and the start, the normal end and the error
end of a request (R141, 00_scope.md R13, 60_exceptions.md R208). -/

namespace Sys2Proof.Machine

/-! ## Memory: the written cells, by index, strictly rising -/

/-- The canonical form: indices strictly rising. A cell that is not listed is unwritten and reads as no value (R44), so
no listed cell equals what an unlisted one reads as. -/
abbrev Memory.wf {α : Type} (m : List (Nat × α)) : Prop :=
  m.Pairwise fun x y => x.1 < y.1

/-- The value of a cell; none if it was never written (R44). -/
def Memory.get {α : Type} : List (Nat × α) → Nat → Option α
  | [], _ => none
  | (b, v) :: m, a => if a = b then some v else Memory.get m a

/-- A write of one cell. -/
def Memory.set {α : Type} : List (Nat × α) → Nat → α → List (Nat × α)
  | [], a, v => [(a, v)]
  | (b, w) :: m, a, v =>
    if a < b then (a, v) :: (b, w) :: m
    else if a = b then (a, v) :: m
    else (b, w) :: Memory.set m a v

/-- A write of cells `a, a+1, ..` in order. -/
def Memory.setRun {α : Type} : List (Nat × α) → Nat → List α → List (Nat × α)
  | m, _, [] => m
  | m, a, v :: vs => Memory.setRun (Memory.set m a v) (a + 1) vs

/-- `f` of each element in order, or the first error. -/
def readAll {α β : Type} (f : α → Except Nat β) : List α → Except Nat (List β)
  | [] => .ok []
  | a :: as =>
    match f a with
    | .error e => .error e
    | .ok b =>
      match readAll f as with
      | .error e => .error e
      | .ok bs => .ok (b :: bs)

/-- A read of one cell by a request: an unwritten cell is an error that names it (R44). -/
def readCell {α : Type} (m : List (Nat × α)) (a : Nat) : Except Nat α :=
  match Memory.get m a with
  | some v => .ok v
  | none => .error a

/-! ## Register fields -/

/-- `STATUS.STATE <- l`. -/
def setLife (l : LifeState) (s : State) : State := { s with life := l }

/-- `STATUS.HANDLE_OPEN <- b`. -/
def setHandleOpen (b : Bool) (s : State) : State := { s with handleOpen := b }

/-- `PACKOUT <- zext_32(b)`. -/
def setPackOut (b : Byte) (s : State) : State := { s with packOut := b }

/-! ## The bus (00_scope.md R12) -/

/-- `ceil_div` (00_scope.md R10). -/
def ceilDiv (a b : Nat) : Nat := (a + b - 1) / b

/-- The transport's next answer (60_exceptions.md R205): a supplied one, in order, or else a free value. -/
def drawAnswer (s : State) : Answer × State :=
  match s.draws with
  | r :: rs => (r, { s with draws := rs })
  | [] => (Config.transportAnswer s.freeCount, { s with freeCount := s.freeCount + 1 })

/-- A bus event, made from the transport's answer, appended at the end of the log (20_memory.md R47). -/
def busCall (event : Answer → BusEvent) (s : State) : Answer × State :=
  ((drawAnswer s).1, { (drawAnswer s).2 with log := s.log ++ [event (drawAnswer s).1] })

/-- `BusOpen`. -/
def busOpen (bus : BitVec 8) (addr : BitVec 7) (s : State) : Answer × State := busCall (.opened bus addr) s

/-- `BusWrite` of one transaction. -/
def busWrite (t : List Byte) (s : State) : Answer × State := busCall (.write t) s

/-- `BusClose`. -/
def busClose (s : State) : Answer × State := busCall .closed s

/-! ## Chunking and the write primitive -/

/-- The chunks of a sequence: slices of at most `n` bytes, in order (20_memory.md R51). -/
def chunks (n : Nat) (seq : List Byte) : List (List Byte) :=
  (List.range (ceilDiv seq.length n)).map fun k => (seq.drop (n * k)).take n

/-- The mode prefix of a kind of transaction (20_memory.md R50). -/
def TxKind.modeByte : TxKind → Byte
  | .command => Config.prefixCmd
  | .data => Config.prefixData

/-- One more `BusWrite` call counted (41_sequencer.md R142). -/
def countTx (s : State) : State := { s with txCount := s.txCount + 1 }

/-- The loop of `WriteSeq`: each chunk counted, prefixed and written, up to the first failing one (41_sequencer.md
R142). -/
def sendChunks (modeByte : Byte) : List (List Byte) → State → Answer × State
  | [], s => (.ok, s)
  | c :: cs, s =>
    match busWrite (modeByte :: c) (countTx s) with
    | (.fail, t) => (.fail, t)
    | (.ok, t) => sendChunks modeByte cs t

/-- `WriteSeq(prefix, s)` (R142). -/
def writeSeq (kind : TxKind) (seq : List Byte) (s : State) : Answer × State :=
  sendChunks kind.modeByte (chunks Config.chunkMax seq) s

/-- A new write call of a kind, with no byte yet: its transactions carry that kind's mode prefix (20_memory.md R50). -/
def beginSeq (kind : TxKind) (s : State) : State := { s with staged := ⟨kind, []⟩ }

/-- Bytes appended to the write call being made up. -/
def stage (bytes : List Byte) (s : State) : State :=
  { s with staged := ⟨s.staged.kind, s.staged.bytes ++ bytes⟩ }

/-- The staged write call is made, and nothing is staged any more. -/
def flush (s : State) : Answer × State :=
  writeSeq s.staged.kind s.staged.bytes { s with staged := Staged.empty }

/-- `writeCommands` (R143). -/
def writeCommands (bytes : List Byte) (s : State) : Answer × State := flush (stage bytes (beginSeq .command s))

/-- `writeData` (R144). -/
def writeData (bytes : List Byte) (s : State) : Answer × State := flush (stage bytes (beginSeq .data s))

/-- The sequencer emits command bytes: they join the command sequence being made up. A data sequence takes no command
byte ("It never mixes command and data bytes in one transaction", R50), so beside one a new command sequence begins. -/
def emitCommand (bytes : List Byte) (s : State) : State :=
  match s.staged.kind with
  | .command => stage bytes s
  | .data => stage bytes (beginSeq .command s)

/-! ## The start and the end of a request -/

/-- The start of every request: `TXCOUNT <- 0` (R141); the working state holds nothing from before (10_state.md R30). -/
def beginRequest (s : State) : State := { s with txCount := 0, staged := Staged.empty }

/-- The end of every request: it writes `RESULT` and `CAUSE` once (10_state.md R23); what the datapath registers hold
after it is a free value (R30). -/
def endRequest (result cause : BitVec 4) (s : State) : State :=
  { s with
    result := result
    cause := cause
    datapath := Config.datapathAfter s.freeCount
    freeCount := s.freeCount + 1 }

/-- `done` (00_scope.md R13). -/
def done (s : State) : State := endRequest 0 0 s

/-- `raise Error(code, cause)` (R13, 60_exceptions.md R208): the one operation of taking an error. No program counter or
state is saved, no mode switched, and there is no handler and no return operation (R208, R209). -/
def raise (e : Err) (s : State) : State := endRequest e.result e.cause s

/-- A request with a reserved encoding (30_encoding.md R81): `TXCOUNT <- 0`, then the error; nothing else changes. -/
def illegalRequest (e : Err) (s : State) : State := raise e (beginRequest s)

/-- `FAULT <- 1` (20_memory.md R44), and nothing else: the datapath registers keep their values, which the spec leaves
open after a model fault (DESIGN CHOICE, unsafe, log entry 24). -/
def setFault (s : State) : State := { s with fault := true }

end Sys2Proof.Machine
end

