-- ==== Sys2Proof/Machine/Operands.lean ====
section
/-! DEFINITION. The operands of the requests: the geometry and range checks (41_sequencer.md R145, 42_bit_unpacker.md
R166, 43_render.md R176), the byte sequences read from PBUF (20_memory.md R46), the pixels read from FB (R43, R45), and the
one-byte operands of the range command (43_render.md R180). -/

namespace Sys2Proof.Machine

/-- `PAGES = HEIGHT div 8` (10_state.md R24). -/
def pageCount (height : BitVec 16) : Nat := height.toNat / 8

/-- The most pages a variant allows (R145, 92_eei_decisions.md D6). -/
def pageLimit : Variant → Nat
  | .A => 16
  | .B => 256

/-- INIT's geometry check (R145): at least one page and at most the variant's limit. -/
def geometryOk (var : Variant) (height : BitVec 16) : Bool :=
  decide (1 ≤ pageCount height ∧ pageCount height ≤ pageLimit var)

/-- `MemRead(PBUF:0, n)` (R46): bytes `PBUF[0..n)`, or the first unwritten index. -/
def readPbuf (pbuf : List Host.Cell) (n : Nat) : Except Nat (List Byte) :=
  readAll (readCell pbuf) (List.range n)

/-- `fb_index(x, y) = y * WIDTH + x` (R43). -/
def fbIndex (width x y : Nat) : Nat := y * width + x

/-- The 8 cells of column `x` of page `p`, top row first (42_bit_unpacker.md R161, R167). -/
def columnCells (width x p : Nat) : List Nat :=
  (List.range 8).map fun n => fbIndex width x (8 * p + n)

/-- PACK's range check (R166): column below `WIDTH`, page below `PAGES`. -/
def packInRange (col : BitVec 16) (pg : BitVec 8) (s : State) : Bool :=
  decide (col.toNat < s.width.toNat ∧ pg.toNat < s.pages.toNat)

/-- RENDER's size check (R176): the bitmap's width and height are the configured ones. -/
def renderSizeOk (fbw : BitVec 9) (fbh : BitVec 16) (s : State) : Bool :=
  decide (fbw.toNat = s.width.toNat ∧ fbh = s.height)

/-- The one-byte operand `n - 1` of a range command, `n` in 1..256 (43_render.md R180, R187); for another `n` no rule
states the byte and it is a free value (log entry 4). -/
def lastIndexByte (n : BitVec 16) : Byte :=
  if 1 ≤ n.toNat ∧ n.toNat ≤ 256 then BitVec.ofNat 8 (n.toNat - 1) else Config.unstatedOperand n.toNat

end Sys2Proof.Machine
end

