-- ==== Sys2Proof/Machine/Vocabulary.lean ====
section
/-! DEFINITION. The command vocabulary (40_command_vocabulary.md). For each wire opcode: the bytes the sequencer emits
for it, the opcode and "the operand bytes the block emits right after it" (R103 to R124), as a function of `OPC`; the init
tables made of them (R126, R127); the page-select and range commands (43_render.md R177, R180); and the meaning of each
row: the sequencer emits those bytes, writes no flag and raises nothing (log entry 6). -/

namespace Sys2Proof.Machine

/-! ## The bytes emitted for each opcode -/

/-- R103. -/
def displayOffBytes (o : Opc) : List Byte := [o.displayOff]

/-- R104: bare in table A, operand `0x00` in table B. -/
def setMemoryModeBytes (o : Opc) : Variant → List Byte
  | .A => [o.setMemoryMode]
  | .B => [o.setMemoryMode, 0x00]

/-- R105. -/
def setHighColumnBytes (o : Opc) : List Byte := [o.setHighColumn, 0xB0, 0xC8]

/-- R106. -/
def setLowColumnBytes (o : Opc) : List Byte := [o.setLowColumn, 0x10, 0x40]

/-- R107. -/
def setContrastBytes (o : Opc) : Variant → List Byte
  | .A => [o.setContrast, 0x7F]
  | .B => [o.setContrast, 0xCF]

/-- R108. -/
def segmentRemapBytes (o : Opc) : List Byte := [o.segmentRemap]

/-- R109. -/
def normalDisplayBytes (o : Opc) : List Byte := [o.normalDisplay]

/-- R110. -/
def setMultiplexBytes (o : Opc) : List Byte := [o.setMultiplex, 0x3F]

/-- R111. -/
def displayAllOnResumeBytes (o : Opc) : List Byte := [o.displayAllOnResume]

/-- R112. -/
def setDisplayOffsetBytes (o : Opc) : List Byte := [o.setDisplayOffset, 0x00]

/-- R113. -/
def setClockDivBytes (o : Opc) : Variant → List Byte
  | .A => [o.setClockDiv, 0xF0]
  | .B => [o.setClockDiv, 0x80]

/-- R114. -/
def setPrechargeBytes (o : Opc) : Variant → List Byte
  | .A => [o.setPrecharge, 0x22]
  | .B => [o.setPrecharge, 0xF1]

/-- R115. -/
def setComPinsBytes (o : Opc) : List Byte := [o.setComPins, 0x12]

/-- R116. -/
def setVcomDetectBytes (o : Opc) : Variant → List Byte
  | .A => [o.setVcomDetect, 0x20]
  | .B => [o.setVcomDetect, 0x40]

/-- R117. -/
def chargePumpBytes (o : Opc) : List Byte := [o.chargePump, 0x14]

/-- R118. -/
def displayOnBytes (o : Opc) : List Byte := [o.displayOn]

/-- R119. -/
def setStartLineBytes (o : Opc) : List Byte := [o.setStartLine]

/-- R120. -/
def comScanDecBytes (o : Opc) : List Byte := [o.comScanDec]

/-- R121: the column range `0x00`, `WIDTH - 1`. -/
def columnAddrBytes (o : Opc) (width : BitVec 16) : List Byte := [o.columnAddr, 0x00, lastIndexByte width]

/-- R122: the page range `0x00`, `PAGES - 1`. -/
def pageAddrBytes (o : Opc) (pages : BitVec 16) : List Byte := [o.pageAddr, 0x00, lastIndexByte pages]

/-- R123: the byte `0xB0 + p`. Its two operands are rows of their own (R124). -/
def pageSelectBytes (p : Nat) : List Byte := [Config.pageSelectBase + BitVec.ofNat 8 p]

/-- R124. -/
def pageColLoBytes : List Byte := [Config.pageColLo]

/-- R124. -/
def pageColHiBytes : List Byte := [Config.pageColHi]

/-! ## The command sequences the block builds itself (30_encoding.md R85) -/

/-- The init table of a variant, element by element (R126, R127). -/
def initTable (o : Opc) : Variant → List Byte
  | .A =>
    displayOffBytes o ++ setMemoryModeBytes o .A ++ setHighColumnBytes o ++ setLowColumnBytes o ++
    setContrastBytes o .A ++ segmentRemapBytes o ++ normalDisplayBytes o ++ setMultiplexBytes o ++
    displayAllOnResumeBytes o ++ setDisplayOffsetBytes o ++ setClockDivBytes o .A ++ setPrechargeBytes o .A ++
    setComPinsBytes o ++ setVcomDetectBytes o .A ++ chargePumpBytes o ++ displayOnBytes o
  | .B =>
    displayOffBytes o ++ setClockDivBytes o .B ++ setMultiplexBytes o ++ setDisplayOffsetBytes o ++
    setStartLineBytes o ++ chargePumpBytes o ++ setMemoryModeBytes o .B ++ segmentRemapBytes o ++
    comScanDecBytes o ++ setComPinsBytes o ++ setContrastBytes o .B ++ setPrechargeBytes o .B ++
    setVcomDetectBytes o .B ++ displayAllOnResumeBytes o ++ normalDisplayBytes o ++ displayOnBytes o

/-- `PageSelA(p)` (R177). -/
def pageSelA (p : Nat) : List Byte := pageSelectBytes p ++ pageColLoBytes ++ pageColHiBytes

/-- `RangeCmdB` (R180). -/
def rangeCmdB (o : Opc) (width pages : BitVec 16) : List Byte := columnAddrBytes o width ++ pageAddrBytes o pages

/-! ## The meanings of the opcode rows

DESIGN CHOICE (log entry 23): the operand of SET_MEMORY_MODE, SET_CONTRAST, SET_CLOCK_DIV, SET_PRECHARGE and
SET_VCOM_DETECT is that of the variant in `CFG.VARIANT`, before any INIT has passed its checks too, when the register holds
its reset value and R34 gives it no meaning. -/

/-- DISPLAY_OFF (R103). -/
def execDisplayOff (s : State) : Result := .next (emitCommand (displayOffBytes Config.opc) s)

/-- SET_MEMORY_MODE (R104); before any INIT has passed its checks, Variant A's operand form (DESIGN CHOICE, log entry 23). -/
def execSetMemoryMode (s : State) : Result := .next (emitCommand (setMemoryModeBytes Config.opc s.variant) s)

/-- SET_HIGH_COLUMN (R105). -/
def execSetHighColumn (s : State) : Result := .next (emitCommand (setHighColumnBytes Config.opc) s)

/-- SET_LOW_COLUMN (R106). -/
def execSetLowColumn (s : State) : Result := .next (emitCommand (setLowColumnBytes Config.opc) s)

/-- SET_CONTRAST (R107); before any INIT has passed its checks, Variant A's operand form (DESIGN CHOICE, log entry 23). -/
def execSetContrast (s : State) : Result := .next (emitCommand (setContrastBytes Config.opc s.variant) s)

/-- SEGMENT_REMAP (R108). -/
def execSegmentRemap (s : State) : Result := .next (emitCommand (segmentRemapBytes Config.opc) s)

/-- NORMAL_DISPLAY (R109). -/
def execNormalDisplay (s : State) : Result := .next (emitCommand (normalDisplayBytes Config.opc) s)

/-- SET_MULTIPLEX (R110). -/
def execSetMultiplex (s : State) : Result := .next (emitCommand (setMultiplexBytes Config.opc) s)

/-- DISPLAY_ALL_ON_RESUME (R111). -/
def execDisplayAllOnResume (s : State) : Result := .next (emitCommand (displayAllOnResumeBytes Config.opc) s)

/-- SET_DISPLAY_OFFSET (R112). -/
def execSetDisplayOffset (s : State) : Result := .next (emitCommand (setDisplayOffsetBytes Config.opc) s)

/-- SET_CLOCK_DIV (R113); before any INIT has passed its checks, Variant A's operand form (DESIGN CHOICE, log entry 23). -/
def execSetClockDiv (s : State) : Result := .next (emitCommand (setClockDivBytes Config.opc s.variant) s)

/-- SET_PRECHARGE (R114); before any INIT has passed its checks, Variant A's operand form (DESIGN CHOICE, log entry 23). -/
def execSetPrecharge (s : State) : Result := .next (emitCommand (setPrechargeBytes Config.opc s.variant) s)

/-- SET_COM_PINS (R115). -/
def execSetComPins (s : State) : Result := .next (emitCommand (setComPinsBytes Config.opc) s)

/-- SET_VCOM_DETECT (R116); before any INIT has passed its checks, Variant A's operand form (DESIGN CHOICE, log entry 23). -/
def execSetVcomDetect (s : State) : Result := .next (emitCommand (setVcomDetectBytes Config.opc s.variant) s)

/-- CHARGE_PUMP (R117). -/
def execChargePump (s : State) : Result := .next (emitCommand (chargePumpBytes Config.opc) s)

/-- DISPLAY_ON (R118). -/
def execDisplayOn (s : State) : Result := .next (emitCommand (displayOnBytes Config.opc) s)

/-- SET_START_LINE (R119). -/
def execSetStartLine (s : State) : Result := .next (emitCommand (setStartLineBytes Config.opc) s)

/-- COM_SCAN_DEC (R120). -/
def execComScanDec (s : State) : Result := .next (emitCommand (comScanDecBytes Config.opc) s)

/-- COLUMN_ADDR (R121). -/
def execColumnAddr (s : State) : Result := .next (emitCommand (columnAddrBytes Config.opc s.width) s)

/-- PAGE_ADDR (R122). -/
def execPageAddr (s : State) : Result := .next (emitCommand (pageAddrBytes Config.opc s.pages) s)

/-- PAGE_SELECT (R123). -/
def execPageSelect (p : BitVec 4) (s : State) : Result := .next (emitCommand (pageSelectBytes p.toNat) s)

/-- PAGE_COL_LO (R124). -/
def execPageColLo (s : State) : Result := .next (emitCommand pageColLoBytes s)

/-- PAGE_COL_HI (R124). -/
def execPageColHi (s : State) : Result := .next (emitCommand pageColHiBytes s)

/-! ## The meanings of the mode prefixes -/

/-- PREFIX_CMD (R83): byte 0 of a command transaction; the command bytes that follow make up its sequence. -/
def execPrefixCmd (s : State) : Result := .next (beginSeq .command s)

/-- PREFIX_DATA (R83): byte 0 of a data transaction. -/
def execPrefixData (s : State) : Result := .next (beginSeq .data s)

end Sys2Proof.Machine
end

