-- ==== Sys2Proof/Machine/Sequencer.lean ====
section
/-! DEFINITION. The command sequencer's requests (41_sequencer.md): INIT (R145), WRCMD (R146), WRDATA (R147), CLOSE
(R148), and the requests with a reserved `OP` (30_encoding.md R81). -/

namespace Sys2Proof.Machine

/-- INIT loads `CFG`, `GEOM` and `PAGES` once its checks have passed and before the open, and enters `INITIALIZING`
(R145, 92_eei_decisions.md D36). -/
def loadConfig (var : Variant) (width : BitVec 9) (height : BitVec 16) (bus : BitVec 8) (addr : BitVec 7)
    (s : State) : State :=
  { s with
    variant := var
    busIndex := bus
    devAddr := addr
    width := width.setWidth 16
    height := height
    pages := BitVec.ofNat 16 (pageCount height)
    life := .initializing }

/-- INIT after a successful open: the init table, then the extra commands, each a command sequence of its own (R145,
92_eei_decisions.md D10). A write failure leaves the block `CLOSED` with the connection open. -/
def initTransmit (var : Variant) (extra : List Byte) (s : State) : State :=
  match writeCommands (initTable Config.opc var) s with
  | (.fail, t) => raise .writeCmd (setLife .closed t)
  | (.ok, t) =>
    match writeCommands extra t with
    | (.fail, u) => raise .writeCmd (setLife .closed u)
    | (.ok, u) => done (setLife .ready u)

/-- INIT from the open on (R145). -/
def initConnect (var : Variant) (bus : BitVec 8) (addr : BitVec 7) (extra : List Byte) (s : State) : State :=
  match busOpen bus addr s with
  | (.fail, t) => raise .openFailed (setLife .uninit t)
  | (.ok, t) => initTransmit var extra (setHandleOpen true t)

/-- INIT (R145). -/
def execInit (var : Variant) (width : BitVec 9) (height : BitVec 16) (bus : BitVec 8) (addr : BitVec 7)
    (nextra : BitVec 16) (s : State) : Result :=
  if s.life ≠ .uninit then .next (raise .state (beginRequest s))
  else if geometryOk var height = false then .next (raise .geometry (beginRequest s))
  else
    match readPbuf s.pbuf nextra.toNat with
    | .error a => .fault (.unwrittenPbuf a (setFault (beginRequest s)))
    | .ok extra =>
      .next (initConnect var bus addr extra (loadConfig var width height bus addr (beginRequest s)))

/-- A request that writes one sequence and stays `READY`: an error `e` on the first failing chunk (R146, R147). -/
def endWrite (e : Err) : Answer × State → State
  | (.fail, t) => raise e t
  | (.ok, t) => done t

/-- WRCMD (R146). -/
def execWrcmd (len : BitVec 16) (s : State) : Result :=
  if s.life ≠ .ready then .next (raise .state (beginRequest s))
  else
    match readPbuf s.pbuf len.toNat with
    | .error a => .fault (.unwrittenPbuf a (setFault (beginRequest s)))
    | .ok seq => .next (endWrite .writeCmd (writeCommands seq (beginRequest s)))

/-- WRDATA (R147). -/
def execWrdata (len : BitVec 16) (s : State) : Result :=
  if s.life ≠ .ready then .next (raise .state (beginRequest s))
  else
    match readPbuf s.pbuf len.toNat with
    | .error a => .fault (.unwrittenPbuf a (setFault (beginRequest s)))
    | .ok seq => .next (endWrite .writeData (writeData seq (beginRequest s)))

/-- CLOSE once it is accepted: the block is `CLOSED`; an open connection is closed, and stays open if the transport's
close fails (R148). -/
def closeConnection (s : State) : State :=
  if s.handleOpen then
    match busClose s with
    | (.fail, t) => raise .closeFailed t
    | (.ok, t) => done (setHandleOpen false t)
  else done s

/-- CLOSE (R148). -/
def execClose (s : State) : Result :=
  if s.life = .uninit then .next (raise .state (beginRequest s))
  else .next (closeConnection (setLife .closed (beginRequest s)))

/-- A request with `OP = 0x0` (R81 (a)). -/
def execReservedOp0 (s : State) : Result := .next (illegalRequest .rsvOp s)

/-- A request with `OP = 0x7` (R81 (a)). -/
def execReservedOp7 (s : State) : Result := .next (illegalRequest .rsvOp s)

/-- A request with `OP` in `0x8..0xF` (R81 (a)). -/
def execReservedOp8F (s : State) : Result := .next (illegalRequest .rsvOp s)

end Sys2Proof.Machine
end

