-- ==== Sys2Proof/Machine/Unpacker.lean ====
section
/-! DEFINITION. The bit unpacker (42_bit_unpacker.md): the packing function (R161), its two shift-register forms (R162,
R163), and PACK (R166). -/

namespace Sys2Proof.Machine

/-- The value of pixels as bits, the first as bit 0: the sum over `n` of `b[n] * 2^n` (R161). -/
def packBits : List Pixel → Nat
  | [] => 0
  | b :: bs => b.toNat + 2 * packBits bs

/-- The byte of 8 pixels, top row first: bit 0 is the topmost row (R161). -/
def packByte (px : List Pixel) : Byte := BitVec.ofNat 8 (packBits px)

/-- One iteration of the 9-bit datapath: OR the pixel into bit 8, then shift right by 1 (R162). -/
def shift9Step (S : BitVec 9) (px : Pixel) : BitVec 9 :=
  (S ||| ((BitVec.ofBool px).setWidth 9 <<< 8)) >>> 1

/-- The 9-bit register after the pixels, top first, from 0 (R162). -/
def shift9 (px : List Pixel) : BitVec 9 := px.foldl shift9Step 0#9

/-- The result `S[7:0]` of the 9-bit datapath (R162). -/
def packByte9 (px : List Pixel) : Byte := (shift9 px).setWidth 8

/-- One iteration of the 8-bit form: OR the pixel into bit 7, then shift right by 1 (R163). -/
def shift8Step (T : BitVec 8) (px : Pixel) : BitVec 8 :=
  (T ||| ((BitVec.ofBool px).setWidth 8 <<< 7)) >>> 1

/-- The 8-bit form: a shift after every pixel but the last, 7 shifts for 8 pixels (R163). -/
def packByte8 : List Pixel → BitVec 8 → Byte
  | [], T => T
  | [px], T => T ||| ((BitVec.ofBool px).setWidth 8 <<< 7)
  | px :: px' :: rest, T => packByte8 (px' :: rest) (shift8Step T px)

/-- `packColumn(x, p)` (R161): the byte of the 8 cells of column `x` of page `p`, or the first unwritten cell. -/
def packColumn (fb : List (Nat × Pixel)) (width x p : Nat) : Except Nat Byte :=
  match readAll (readCell fb) (columnCells width x p) with
  | .error a => .error a
  | .ok px => .ok (packByte px)

/-- PACK (R166). -/
def execPack (col : BitVec 16) (pg : BitVec 8) (s : State) : Result :=
  if s.life ≠ .ready then .next (raise .state (beginRequest s))
  else if packInRange col pg s = false then .next (raise .range (beginRequest s))
  else
    match packColumn s.fb s.width.toNat col.toNat pg.toNat with
    | .error a => .fault (.unwrittenFb a (setFault (beginRequest s)))
    | .ok b => .next (done (setPackOut b (beginRequest s)))

end Sys2Proof.Machine
end

