-- ==== Sys2Proof/Machine/Render.lean ====
section
/-! DEFINITION. The page/column reorder engine (43_render.md): RENDER (R176), RenderA (R178) and RenderB (R181). Both
engines read every FB cell of the frame before the first bus event (41_sequencer.md R141). -/

namespace Sys2Proof.Machine

/-- Variant A's data of page `p`: columns ascending (R178, R179). -/
def pageDataA (fb : List (Nat × Pixel)) (width p : Nat) : Except Nat (List Byte) :=
  readAll (fun x => packColumn fb width x p) (List.range width)

/-- Variant A's data of every page, pages ascending (R178). -/
def frameDataA (fb : List (Nat × Pixel)) (width pages : Nat) : Except Nat (List (List Byte)) :=
  readAll (pageDataA fb width) (List.range pages)

/-- The (column, page) pairs in Variant B's order: pages ascending, columns descending (R181). -/
def visitB (width pages : Nat) : List (Nat × Nat) :=
  (List.range pages).flatMap fun p => (List.range width).reverse.map fun x => (x, p)

/-- Variant B's combined buffer (R181). -/
def frameDataB (fb : List (Nat × Pixel)) (width pages : Nat) : Except Nat (List Byte) :=
  readAll (fun c => packColumn fb width c.1 c.2) (visitB width pages)

/-- RenderA's transmission from page `p` on: the page select, then the page's data (R178). -/
def sendPages : Nat → List (List Byte) → State → State
  | _, [], s => done s
  | p, d :: ds, s =>
    match writeCommands (pageSelA p) s with
    | (.fail, t) => raise .writeCmd t
    | (.ok, t) =>
      match writeData d t with
      | (.fail, u) => raise .writeData u
      | (.ok, u) => sendPages (p + 1) ds u

/-- RenderB's transmission: the range command, then the combined buffer (R181). -/
def sendFrame (range buf : List Byte) (s : State) : State :=
  match writeCommands range s with
  | (.fail, t) => raise .writeCmd t
  | (.ok, t) => endWrite .writeData (writeData buf t)

/-- RenderA (R178). -/
def renderA (s : State) : Result :=
  match frameDataA s.fb s.width.toNat s.pages.toNat with
  | .error a => .fault (.unwrittenFb a (setFault s))
  | .ok data => .next (sendPages 0 data s)

/-- RenderB (R181). -/
def renderB (s : State) : Result :=
  match frameDataB s.fb s.width.toNat s.pages.toNat with
  | .error a => .fault (.unwrittenFb a (setFault s))
  | .ok buf => .next (sendFrame (rangeCmdB Config.opc s.width s.pages) buf s)

/-- RENDER (R176): the state, then the mode, then the size (60_exceptions.md R207), then the engine of the variant. -/
def execRender (fbw : BitVec 9) (fbh : BitVec 16) (mode1 : Bool) (s : State) : Result :=
  if s.life ≠ .ready then .next (raise .state (beginRequest s))
  else if mode1 = false then .next (raise .mode (beginRequest s))
  else if renderSizeOk fbw fbh s = false then .next (raise .size (beginRequest s))
  else
    match s.variant with
    | .A => renderA (beginRequest s)
    | .B => renderB (beginRequest s)

end Sys2Proof.Machine
end

