-- ==== Sys2Proof/Machine/Dispatch.lean ====
section
/-! DEFINITION. One arm for each constructor of Instr: the request dispatch of 41_sequencer.md R141, and the rows of the
wire vocabulary. -/

namespace Sys2Proof.Machine

def exec (i : Instr) (s : State) : Host.Outcome State Fault Refusal :=
  match i with
  -- host requests
  | .init var width height bus addr nextra => Sys2Proof.Machine.execInit var width height bus addr nextra s
  | .wrcmd len => Sys2Proof.Machine.execWrcmd len s
  | .wrdata len => Sys2Proof.Machine.execWrdata len s
  | .render fbw fbh mode1 => Sys2Proof.Machine.execRender fbw fbh mode1 s
  | .close => Sys2Proof.Machine.execClose s
  | .pack col pg => Sys2Proof.Machine.execPack col pg s
  -- reserved OP values
  | .reservedOp0 _ _ => Sys2Proof.Machine.execReservedOp0 s
  | .reservedOp7 _ _ => Sys2Proof.Machine.execReservedOp7 s
  | .reservedOp8F _ _ _ => Sys2Proof.Machine.execReservedOp8F s
  -- wire opcodes
  | .displayOff => Sys2Proof.Machine.execDisplayOff s
  | .setMemoryMode => Sys2Proof.Machine.execSetMemoryMode s
  | .setHighColumn => Sys2Proof.Machine.execSetHighColumn s
  | .setLowColumn => Sys2Proof.Machine.execSetLowColumn s
  | .setContrast => Sys2Proof.Machine.execSetContrast s
  | .segmentRemap => Sys2Proof.Machine.execSegmentRemap s
  | .normalDisplay => Sys2Proof.Machine.execNormalDisplay s
  | .setMultiplex => Sys2Proof.Machine.execSetMultiplex s
  | .displayAllOnResume => Sys2Proof.Machine.execDisplayAllOnResume s
  | .setDisplayOffset => Sys2Proof.Machine.execSetDisplayOffset s
  | .setClockDiv => Sys2Proof.Machine.execSetClockDiv s
  | .setPrecharge => Sys2Proof.Machine.execSetPrecharge s
  | .setComPins => Sys2Proof.Machine.execSetComPins s
  | .setVcomDetect => Sys2Proof.Machine.execSetVcomDetect s
  | .chargePump => Sys2Proof.Machine.execChargePump s
  | .displayOn => Sys2Proof.Machine.execDisplayOn s
  | .setStartLine => Sys2Proof.Machine.execSetStartLine s
  | .comScanDec => Sys2Proof.Machine.execComScanDec s
  | .columnAddr => Sys2Proof.Machine.execColumnAddr s
  | .pageAddr => Sys2Proof.Machine.execPageAddr s
  -- page select and mode prefixes
  | .pageSelect p => Sys2Proof.Machine.execPageSelect p s
  | .pageColLo => Sys2Proof.Machine.execPageColLo s
  | .pageColHi => Sys2Proof.Machine.execPageColHi s
  | .prefixCmd => Sys2Proof.Machine.execPrefixCmd s
  | .prefixData => Sys2Proof.Machine.execPrefixData s

end Sys2Proof.Machine
end

