-- ==== Sys2Proof/Machine/HostActions.lean ====
section
/-! DEFINITION. What one move does: the host's register and memory accesses (10_state.md R21, R28, 60_exceptions.md
R214), the launch of a request (41_sequencer.md R141), the transport's supplied answers, reset (70_reset_and_hazards.md
R231), and an emission of the sequencer. -/

namespace Sys2Proof.Machine

/-- A request with the words in `OPW` and `ARG` (R141): decoded and executed; a nonzero must-be-zero field makes it
illegal (30_encoding.md R81 (b)), the only way in which a request's words decode to no instruction. -/
def launch (s : State) : Result :=
  match decodeRequest s.opw s.arg with
  | .ok i => exec i s
  | .error _ => .next (illegalRequest .rsvField s)

/-- A host write of a register (R21, R28): `OPW` is stored and launches a request, `ARG` is stored, every other write is
ignored. An offset that is not word-aligned is refused (20_memory.md R54). -/
def hostWriteReg (offset : Nat) (v : Word) (s : State) : Result :=
  if offset % 4 ≠ 0 then .refused (.unalignedRegister offset)
  else if offset = 0x00 then launch { s with opw := v }
  else if offset = 0x04 then .next { s with arg := v }
  else .next s

/-- A host read of a register (R21): its value, with no side effect. -/
def hostReadReg (offset : Nat) (s : State) : Result :=
  if offset % 4 ≠ 0 then .refused (.unalignedRegister offset)
  else .next { s with readData := readReg offset s }

/-- A host read of an FB cell. An unwritten cell is a model fault (00_scope.md R11). -/
def hostReadFb (index : Nat) (s : State) : Result :=
  match readCell s.fb index with
  | .error a => .fault (.unwrittenFb a (setFault s))
  | .ok px => .next { s with readData := (BitVec.ofBool px).setWidth 32 }

/-- A host write of PBUF bytes from an index up (30_encoding.md R86 `PB`), all inside PBUF. -/
def hostWritePbuf (index : Nat) (bytes : List Byte) (s : State) : Result :=
  if index + bytes.length ≤ Config.pbufSize then .next { s with pbuf := Memory.setRun s.pbuf index bytes }
  else .fault (.noSuchPbufCell (index + bytes.length - 1))

/-- A host read of a PBUF byte. -/
def hostReadPbuf (index : Nat) (s : State) : Result :=
  if index < Config.pbufSize then
    match readCell s.pbuf index with
    | .error a => .fault (.unwrittenPbuf a (setFault s))
    | .ok b => .next { s with readData := b.setWidth 32 }
  else .fault (.noSuchPbufCell index)

/-- `FBCLR` (R86): 0 to every cell of `FB[0 .. WIDTH*HEIGHT)`. -/
def clearFb (s : State) : State :=
  { s with fb := Memory.setRun s.fb 0 (List.replicate (s.width.toNat * s.height.toNat) false) }

/-- `FBSET x, y` (R86): 1 to `FB[y*WIDTH + x]`. -/
def setPixel (x y : Nat) (s : State) : State :=
  { s with fb := Memory.set s.fb (fbIndex s.width.toNat x y) true }

/-- Reset (R231): every piece of the block's state at its reset value (10_state.md R34). The agents outside the block,
the moves to come, the transport's answers and the value the host last read, go on. -/
def resetBlock (s : State) : State :=
  { State.reset with moves := s.moves, draws := s.draws, freeCount := s.freeCount, readData := s.readData }

/-- An emission of the sequencer: the row of that byte at that place (40_command_vocabulary.md R101, R125). -/
def emitByte (pos : WirePos) (b : Byte) (s : State) : Result :=
  match decodeWire pos b with
  | .ok i => exec i s
  | .error _ => .refused (.notInVocabulary pos b)

/-- What one move does. -/
def applyMove (m : Move) (s : State) : Result :=
  match m with
  | .regWrite offset v => hostWriteReg offset v s
  | .regRead offset => hostReadReg offset s
  | .fbWrite index px => .next { s with fb := Memory.set s.fb index px }
  | .fbRead index => hostReadFb index s
  | .pbufWrite index bytes => hostWritePbuf index bytes s
  | .pbufRead index => hostReadPbuf index s
  | .fbClear => .next (clearFb s)
  | .fbSet x y => .next (setPixel x y s)
  | .answers rs => .next { s with draws := s.draws ++ rs }
  | .reset => .next (resetBlock s)
  | .emit pos b => emitByte pos b s

/-- The next move taken from the list, and done; with none to come the block is idle, and does nothing on its own
(70_reset_and_hazards.md R232). -/
def takeMove (s : State) : Result :=
  match s.moves with
  | [] => .next s
  | m :: ms => applyMove m { s with moves := ms }

/-- The move that makes the machine run a code, put before the others: for a request, `ARG` holds its second word and
the host writes its first to `OPW` (30_encoding.md R71); for a wire byte, the sequencer emits it. -/
def placeCode (c : Code) (s : State) : State :=
  match c with
  | .request opw arg => { s with arg := arg, moves := .regWrite 0x00 opw :: s.moves }
  | .wire pos b => { s with moves := .emit pos b :: s.moves }

end Sys2Proof.Machine
end

