-- ==== Sys2Proof/Machine/Step.lean ====
section
/-! DEFINITION. One step: the next move, done to completion (00_scope.md R6). -/

namespace Sys2Proof.Machine

/-- One step of the machine. -/
def step (s : State) : Host.Outcome State Fault Refusal := takeMove s

/-- `s` with the instruction of a table word placed so that the very next step runs it. -/
def State.withFetchWord (s : State) (nbits w : Nat) : State := placeCode (tableCode nbits w) s

end Sys2Proof.Machine
end

