-- ==== Sys2Proof/Machine/Assembler.lean ====
section
/-! DEFINITION. The assembler syntax of 30_encoding.md R86 and its pseudo-instructions R87, as data: each program line
and the moves it stands for. -/

namespace Sys2Proof.Machine

/-- One line of a program (R86, R87). -/
inductive Line where
  /-- `INIT A|B, width, height, bus, addr[, nextra]`; `nextra` defaults to 0 -/
  | init (var : Variant) (width : BitVec 9) (height : BitVec 16) (bus : BitVec 8) (addr : BitVec 7)
      (nextra : Option (BitVec 16))
  | wrcmd (len : BitVec 16)
  | wrdata (len : BitVec 16)
  /-- `RENDER fbw, fbh[, mode1]`; `mode1` defaults to 1 -/
  | render (fbw : BitVec 9) (fbh : BitVec 16) (mode1 : Option Bool)
  | close
  /-- `PACK col, page` -/
  | pack (col : BitVec 16) (pg : BitVec 8)
  /-- `PB i: b0 b1 ...` -/
  | pb (index : Nat) (bytes : List Byte)
  | fbclr
  | fbset (x y : Nat)
  /-- `EXPECT reg = v`: a register read, with no effect on the block -/
  | expect (offset : Nat)
  /-- `BUS ok|fail, ...` -/
  | bus (rs : List Answer)
  /-- `WRCMDB b0, .., bn-1` (R87) -/
  | wrcmdb (bytes : List Byte)
  /-- `WRDATAB b0, .., bn-1` (R87) -/
  | wrdatab (bytes : List Byte)
  /-- `INITX A|B, w, h, bus, addr, b0, .., bn-1` (R87) -/
  | initx (var : Variant) (width : BitVec 9) (height : BitVec 16) (bus : BitVec 8) (addr : BitVec 7)
      (bytes : List Byte)
  deriving DecidableEq, Repr

/-- A request assembles to `ARG <- a; OPW <- o` (R86). DESIGN CHOICE (log entry 22): R75 says only that width 0 cannot be
encoded and gives no words for a line with a width outside 1..256; here such a line gets the words of the wrapped field,
`width - 1` taken to 8 bits, so that width 0 assembles as width 256. -/
def assembleRequest (i : Instr) : List Move :=
  match encode i with
  | .request opw arg => [.regWrite 0x04 arg, .regWrite 0x00 opw]
  | .wire pos b => [.emit pos b]

/-- The moves of a line (R86), a pseudo-instruction by its expansion (R87). -/
def assemble : Line → List Move
  | .init var width height bus addr nextra => assembleRequest (.init var width height bus addr (nextra.getD 0))
  | .wrcmd len => assembleRequest (.wrcmd len)
  | .wrdata len => assembleRequest (.wrdata len)
  | .render fbw fbh mode1 => assembleRequest (.render fbw fbh (mode1.getD true))
  | .close => assembleRequest .close
  | .pack col pg => assembleRequest (.pack col pg)
  | .pb index bytes => [.pbufWrite index bytes]
  | .fbclr => [.fbClear]
  | .fbset x y => [.fbSet x y]
  | .expect offset => [.regRead offset]
  | .bus rs => [.answers rs]
  | .wrcmdb bytes => .pbufWrite 0 bytes :: assembleRequest (.wrcmd (BitVec.ofNat 16 bytes.length))
  | .wrdatab bytes => .pbufWrite 0 bytes :: assembleRequest (.wrdata (BitVec.ofNat 16 bytes.length))
  | .initx var width height bus addr bytes =>
    .pbufWrite 0 bytes :: assembleRequest (.init var width height bus addr (BitVec.ofNat 16 bytes.length))

/-- The moves of a program, line by line. -/
def assembleProgram (lines : List Line) : List Move := lines.flatMap assemble

end Sys2Proof.Machine
end

