-- ==== Sys2Proof/Safety.lean ====
section
/-! DEFINITION. The terms claims are stated in: which instructions are host requests, what the bus log says, the pixels and
bytes of a frame as the spec names them, and the invariant of every state the host can observe (41_sequencer.md R149). -/

namespace Sys2Proof.Machine

/-- A host request, legal or with a reserved `OP`: an operation with the words `OPW` and `ARG` (30_encoding.md R71). -/
def isRequest : Instr → Bool
  | .init _ _ _ _ _ _ | .wrcmd _ | .wrdata _ | .render _ _ _ | .close | .pack _ _ => true
  | .reservedOp0 _ _ | .reservedOp7 _ _ | .reservedOp8F _ _ _ => true
  | .displayOff | .setMemoryMode | .setHighColumn | .setLowColumn | .setContrast | .segmentRemap | .normalDisplay
  | .setMultiplex | .displayAllOnResume | .setDisplayOffset | .setClockDiv | .setPrecharge | .setComPins
  | .setVcomDetect | .chargePump | .displayOn | .setStartLine | .comScanDec | .columnAddr | .pageAddr => false
  | .pageSelect _ | .pageColLo | .pageColHi | .prefixCmd | .prefixData => false

/-! ## The words of a request -/

/-- The condition of R81 (b), for the words of a legal `OP`: a field that R73 marks `0` for that `OP` is nonzero. -/
def NonzeroReservedField (opw arg : Word) : Prop :=
  opw.toNat / 2 ^ 5 % 2 ^ 3 ≠ 0 ∨
    (opw.toNat % 16 ≠ 1 ∧ opw.toNat / 2 ^ 4 % 2 ≠ 0) ∨
    ((opw.toNat % 16 = 2 ∨ opw.toNat % 16 = 3 ∨ opw.toNat % 16 = 5) ∧ opw.toNat / 2 ^ 8 % 2 ^ 8 ≠ 0) ∨
    (opw.toNat % 16 = 5 ∧ opw.toNat / 2 ^ 16 ≠ 0) ∨
    (opw.toNat % 16 = 1 ∧ arg.toNat / 2 ^ 15 % 2 ≠ 0) ∨
    (opw.toNat % 16 = 4 ∧ arg.toNat / 2 ≠ 0) ∨
    ((opw.toNat % 16 = 2 ∨ opw.toNat % 16 = 3 ∨ opw.toNat % 16 = 5 ∨ opw.toNat % 16 = 6) ∧ arg.toNat ≠ 0)

/-! ## The bus log -/

/-- A transaction of R50: a mode prefix, then 1 to 32 bytes. -/
def validTransaction : List Byte → Bool
  | [] => false
  | b :: chunk => (b = 0x00 || b = 0x40) && decide (1 ≤ chunk.length ∧ chunk.length ≤ 32)

/-- An event the block may issue: every `BusWrite` carries a valid transaction (R50). -/
def validEvent : BusEvent → Bool
  | .write t _ => validTransaction t
  | .opened _ _ _ | .closed _ => true

/-- The transport's answer in an event. -/
def BusEvent.answer : BusEvent → Answer
  | .opened _ _ r | .write _ r | .closed r => r

/-- A `BusWrite`. -/
def isWrite : BusEvent → Bool
  | .write _ _ => true
  | .opened _ _ _ | .closed _ => false

/-- An `Open(.., ok)`. -/
def isOpenOk : BusEvent → Bool
  | .opened _ _ .ok => true
  | .opened _ _ .fail | .write _ _ | .closed _ => false

/-- A `Close(ok)`. -/
def isCloseOk : BusEvent → Bool
  | .closed .ok => true
  | .closed .fail | .write _ _ | .opened _ _ _ => false

/-- Whether the log holds an `Open(.., ok)` with no `Close(ok)` after it (R149). -/
def connectionOpen (log : List BusEvent) : Bool :=
  log.foldl (fun o e => if isOpenOk e then true else if isCloseOk e then false else o) false

/-- The transactions of one write call: each chunk with the mode prefix (R50, R51). -/
def transactions (modeByte : Byte) (seq : List Byte) : List (List Byte) :=
  (chunks 32 seq).map fun c => modeByte :: c

/-- Transactions that were all answered `ok`, as events. -/
def sentOk (ts : List (List Byte)) : List BusEvent := ts.map fun t => .write t .ok

/-! ## The memories -/

/-- `PBUF[0..n)` holds exactly these `n` bytes (20_memory.md R46). -/
def PbufHolds (s : State) (bytes : List Byte) : Prop :=
  ∀ k, (h : k < bytes.length) → Memory.get s.pbuf k = some bytes[k]

/-- `getPixel(x, y)` of a written cell (R43); an unwritten cell has no value, and here reads as off. -/
def pixelAt (s : State) (x y : Nat) : Pixel := (Memory.get s.fb (y * s.width.toNat + x)).getD false

/-- The cell of pixel `(x, y)` has been written (R44). -/
def PixelWritten (s : State) (x y : Nat) : Prop := (Memory.get s.fb (y * s.width.toNat + x)).isSome = true

/-- Every cell a RENDER reads has been written (43_render.md R190). -/
def FrameWritten (s : State) : Prop :=
  ∀ x y, x < s.width.toNat → y < 8 * s.pages.toNat → PixelWritten s x y

/-- The byte whose bit `n` is the pixel at column `x`, row `8p + n` (42_bit_unpacker.md R161). -/
def columnByte (s : State) (x p : Nat) : Byte :=
  packByte ((List.range 8).map fun n => pixelAt s x (8 * p + n))

/-! ## The transactions of a frame (43_render.md R185) -/

/-- Variant A: for each page, its page select, then its data, columns ascending (R177, R178). -/
def frameTransactionsA (s : State) : List (List Byte) :=
  (List.range s.pages.toNat).flatMap fun p =>
    [0x00, 0xB0 + BitVec.ofNat 8 p, 0x02, 0x10] ::
      transactions 0x40 ((List.range s.width.toNat).map fun x => columnByte s x p)

/-- Variant B: the range command, then the data of all pages as one sequence, columns descending (R180, R181). -/
def frameTransactionsB (s : State) : List (List Byte) :=
  [0x00, Config.opc.columnAddr, 0x00, BitVec.ofNat 8 (s.width.toNat - 1), Config.opc.pageAddr, 0x00,
    BitVec.ofNat 8 (s.pages.toNat - 1)] ::
    transactions 0x40 ((List.range s.pages.toNat).flatMap fun p =>
      (List.range s.width.toNat).reverse.map fun x => columnByte s x p)

/-- The transactions of a frame on the configured variant. -/
def frameTransactions (s : State) : List (List Byte) :=
  match s.variant with
  | .A => frameTransactionsA s
  | .B => frameTransactionsB s

/-! ## The geometry and the invariant -/

/-- A height that INIT accepts for a variant: at least one page, and at most the variant's 16 or 256 (41_sequencer.md
R145). -/
def PagesLegal (var : Variant) (height : BitVec 16) : Prop :=
  1 ≤ height.toNat / 8 ∧ height.toNat / 8 ≤ (match var with | .A => 16 | .B => 256)

/-- `GEOM` and `PAGES` as INIT leaves them (10_state.md R24). -/
def GeometryLegal (s : State) : Prop :=
  (1 ≤ s.width.toNat ∧ s.width.toNat ≤ 256) ∧ s.pages.toNat = s.height.toNat / 8 ∧
    1 ≤ s.pages.toNat ∧ s.pages.toNat ≤ (match s.variant with | .A => 16 | .B => 256)

/-- `GEOM` and `PAGES` as reset leaves them (70_reset_and_hazards.md R234). -/
def GeometryZero (s : State) : Prop :=
  s.width = 0 ∧ s.height = 0 ∧ s.pages = 0

/-- What holds in every state the host can observe: the life-cycle invariants (R149), the legal report pairs (R202), the
legal geometry (R24), the bound on `TXCOUNT` (R184), the form of every transaction (R50), and the model's canonical
memories. -/
structure Inv (s : State) : Prop where
  fbWf : Memory.wf s.fb
  pbufWf : Memory.wf s.pbuf
  pbufBound : ∀ c ∈ s.pbuf, c.1 < 65536
  notFaulted : s.fault = false
  notInitializing : s.life ≠ .initializing
  readyOpen : s.life = .ready → s.handleOpen = true
  uninitClosed : s.life = .uninit → s.handleOpen = false
  report : legalReport s.result s.cause = true
  txBound : s.txCount.toNat ≤ 2049
  geometry : GeometryLegal s ∨ (s.life = .uninit ∧ GeometryZero s)
  uninitLog : s.life = .uninit → s.log.countP isOpenOk = 0 ∧ s.log.countP isCloseOk = 0
  connectedLog : s.life ≠ .uninit →
    s.log.countP isOpenOk = 1 ∧ s.log.countP isCloseOk = (if s.handleOpen then 0 else 1)
  handle : connectionOpen s.log = s.handleOpen
  logValid : ∀ e ∈ s.log, validEvent e = true

/-! ## What a request leaves -/

/-- `s` as a request leaves it that ends with this report after `n` `BusWrite` calls and changes nothing else: the working
state is cleared (10_state.md R30), and the datapath registers hold a free value. -/
def afterRequest (result cause : BitVec 4) (n : Word) (s : State) : State :=
  { s with
    result := result
    cause := cause
    txCount := n
    staged := Staged.empty
    datapath := Config.datapathAfter s.freeCount
    freeCount := s.freeCount + 1 }

/-- `s` as a request leaves it that read an unwritten cell: `FAULT = 1`, `TXCOUNT = 0`, and no other register written
(60_exceptions.md R210); the datapath registers are kept, which is the model's choice (log entry 24). -/
def faultedState (s : State) : State := { s with txCount := 0, staged := Staged.empty, fault := true }

/-- `s` once the sequencer has emitted command bytes: they join the staged command sequence, or begin a new one beside
staged data; nothing else changes. -/
def afterEmit (bytes : List Byte) (s : State) : State :=
  { s with staged := ⟨.command, (match s.staged.kind with | .command => s.staged.bytes | .data => []) ++ bytes⟩ }

/-- The same outcome, with another FB in the state. -/
def withFb (fb : List (Nat × Pixel)) : Result → Result
  | .next t => .next { t with fb := fb }
  | .fault (.unwrittenFb a t) => .fault (.unwrittenFb a { t with fb := fb })
  | .fault (.unwrittenPbuf a t) => .fault (.unwrittenPbuf a { t with fb := fb })
  | .fault (.noSuchPbufCell a) => .fault (.noSuchPbufCell a)
  | .refused r => .refused r

/-- The rows of the opcode table in the order of an init table's elements (40_command_vocabulary.md R126, R127). -/
def initRows : Variant → List Instr
  | .A =>
    [.displayOff, .setMemoryMode, .setHighColumn, .setLowColumn, .setContrast, .segmentRemap, .normalDisplay,
     .setMultiplex, .displayAllOnResume, .setDisplayOffset, .setClockDiv, .setPrecharge, .setComPins,
     .setVcomDetect, .chargePump, .displayOn]
  | .B =>
    [.displayOff, .setClockDiv, .setMultiplex, .setDisplayOffset, .setStartLine, .chargePump, .setMemoryMode,
     .segmentRemap, .comScanDec, .setComPins, .setContrast, .setPrecharge, .setVcomDetect, .displayAllOnResume,
     .normalDisplay, .displayOn]

/-- The outcome of instructions run one after another. -/
def execRows : List Instr → State → Result
  | [], s => .next s
  | i :: is, s =>
    match exec i s with
    | .next t => execRows is t
    | .fault r => .fault r
    | .refused r => .refused r

end Sys2Proof.Machine
end

