-- ==== Sys2Proof/Certificates/Slice0/Obligations.lean ====
section
/-! DEFINITION. The statements for the provers, from the spec's numbered rules. Each is about every state, or about every
state that meets the premises it writes out; the invariant that rules other states out is a statement of its own. -/

open Sys2Proof Sys2Proof.Machine

/-! ## Encoding (30_encoding.md) -/

/-- Decoding the encoding of a well-formed instruction gives it back, every operand at every value. (Log entry 1.) -/
def Obligations.DecodeInvertsEncode : Prop :=
  ∀ i : Instr, i.wf = true → decode (encode i) = .ok i

/-- What decodes is well-formed and is encoded by that code alone: each code has one meaning, and no field that a
request must keep zero is dropped. (Log entry 1.) -/
def Obligations.EncodeInvertsDecode : Prop :=
  ∀ (c : Code) (i : Instr), decode c = .ok i → i.wf = true ∧ encode i = c

/-- R82. Decoding of the request words is total, and gives what R74, R75 and R81 say: a reserved `OP` is its row of the
table, whatever the other bits; a legal `OP` with a nonzero must-be-zero field is illegal; every other pair of words is the
request of its `OP`, with R75's fields as operands. -/
def Obligations.EveryRequestWordDecodes : Prop :=
  ∀ opw arg : Word,
    (opw.toNat % 16 = 0 →
      decodeRequest opw arg = .ok (.reservedOp0 (BitVec.ofNat 28 (opw.toNat / 2 ^ 4)) arg)) ∧
    (opw.toNat % 16 = 7 →
      decodeRequest opw arg = .ok (.reservedOp7 (BitVec.ofNat 28 (opw.toNat / 2 ^ 4)) arg)) ∧
    (8 ≤ opw.toNat % 16 → decodeRequest opw arg =
      .ok (.reservedOp8F (BitVec.ofNat 4 (opw.toNat % 16)) (BitVec.ofNat 28 (opw.toNat / 2 ^ 4)) arg)) ∧
    (1 ≤ opw.toNat % 16 → opw.toNat % 16 ≤ 6 → NonzeroReservedField opw arg →
      decodeRequest opw arg = .error .reservedField) ∧
    (¬ NonzeroReservedField opw arg →
      (opw.toNat % 16 = 1 → decodeRequest opw arg =
        .ok (.init (if opw.toNat / 2 ^ 4 % 2 = 0 then .A else .B) (BitVec.ofNat 9 (opw.toNat / 2 ^ 8 % 2 ^ 8 + 1))
          (BitVec.ofNat 16 (opw.toNat / 2 ^ 16)) (BitVec.ofNat 8 (arg.toNat % 2 ^ 8))
          (BitVec.ofNat 7 (arg.toNat / 2 ^ 8 % 2 ^ 7)) (BitVec.ofNat 16 (arg.toNat / 2 ^ 16)))) ∧
      (opw.toNat % 16 = 2 → decodeRequest opw arg = .ok (.wrcmd (BitVec.ofNat 16 (opw.toNat / 2 ^ 16)))) ∧
      (opw.toNat % 16 = 3 → decodeRequest opw arg = .ok (.wrdata (BitVec.ofNat 16 (opw.toNat / 2 ^ 16)))) ∧
      (opw.toNat % 16 = 4 → decodeRequest opw arg =
        .ok (.render (BitVec.ofNat 9 (opw.toNat / 2 ^ 8 % 2 ^ 8 + 1)) (BitVec.ofNat 16 (opw.toNat / 2 ^ 16))
          (decide (arg.toNat % 2 = 1)))) ∧
      (opw.toNat % 16 = 5 → decodeRequest opw arg = .ok .close) ∧
      (opw.toNat % 16 = 6 → decodeRequest opw arg =
        .ok (.pack (BitVec.ofNat 16 (opw.toNat / 2 ^ 16)) (BitVec.ofNat 8 (opw.toNat / 2 ^ 8 % 2 ^ 8)))))

/-- Words written out from the patterns of R76 to R80 and from R83, R106, R123 decode to what they stand for. (Log
entry 1.) -/
def Obligations.SampleWordsDecode : Prop :=
  decode (.request 0x00407F11 0x00003C01) = .ok (.init .B 128 64 1 0x3C 0) ∧
  decode (.request 0x0800FF11 0x00007FFF) = .ok (.init .B 256 2048 255 0x7F 0) ∧
  decode (.request 0x00210003 0) = .ok (.wrdata 33) ∧
  decode (.request 0x00407F04 1) = .ok (.render 128 64 true) ∧
  decode (.request 0x00020106 0) = .ok (.pack 2 1) ∧
  decode (.wire .first 0x00) = .ok .prefixCmd ∧
  decode (.wire .command 0x00) = .ok .setLowColumn ∧
  decode (.wire .command 0xB3) = .ok (.pageSelect 3)

/-- R81 (a). A request whose `OP` is `0x0` or in `0x7..0xF` does exactly this: `TXCOUNT <- 0`,
`ERR_ILLEGAL/CAUSE_RSV_OP`, and nothing else, whatever its other bits, in every life-cycle state. (Log entries 3, 6,
7.) -/
def Obligations.ReservedOpIsIllegal : Prop :=
  ∀ (s : State) (opw : Word) (ms : List Move), s.moves = .regWrite 0x00 opw :: ms →
    (opw.toNat % 16 = 0 ∨ 7 ≤ opw.toNat % 16) →
    step s = .next (afterRequest 5 1 0 { s with moves := ms, opw := opw })

/-- R81 (b). A request with a legal `OP` and a nonzero must-be-zero field of R73 does exactly this: `TXCOUNT <- 0`,
`ERR_ILLEGAL/CAUSE_RSV_FIELD`, and nothing else, in every life-cycle state. (Log entries 3, 6, 7.) -/
def Obligations.ReservedFieldIsIllegal : Prop :=
  ∀ (s : State) (opw : Word) (ms : List Move), s.moves = .regWrite 0x00 opw :: ms →
    (1 ≤ opw.toNat % 16 ∧ opw.toNat % 16 ≤ 6) →
    NonzeroReservedField opw s.arg →
    step s = .next (afterRequest 5 2 0 { s with moves := ms, opw := opw })

/-! ## The step -/

/-- R141. A host write of `OPW` whose words decode to an instruction runs exactly that instruction, after storing
`OPW`; an emission of the sequencer runs exactly the row of that byte at that place. (Log entry 7.) -/
def Obligations.StepRunsTheDecodedInstruction : Prop :=
  ∀ (s : State) (ms : List Move) (i : Instr),
    (∀ opw, s.moves = .regWrite 0x00 opw :: ms → decode (.request opw s.arg) = .ok i →
      step s = exec i { s with moves := ms, opw := opw }) ∧
    (∀ pos b, s.moves = .emit pos b :: ms → decode (.wire pos b) = .ok i →
      step s = exec i { s with moves := ms })

/-- A table word placed by `withFetchWord` is the instruction the very next step runs, with its words in `OPW` and
`ARG` if it is a request, and with the moves after it as they were. (Log entries 5, 7, 8.) -/
def Obligations.FetchWordRunsNext : Prop :=
  ∀ (s : State) (nbits w : Nat) (i : Instr), decodeTableWord nbits w = some i →
    (∀ opw arg, tableCode nbits w = .request opw arg →
      step (s.withFetchWord nbits w) = exec i { s with opw := opw, arg := arg }) ∧
    (∀ pos b, tableCode nbits w = .wire pos b → step (s.withFetchWord nbits w) = exec i s)

/-- R86. A well-formed request assembles to a write of `ARG` and then of `OPW`, and the two steps run it with those
words in the registers. (Log entry 7.) -/
def Obligations.AssembledRequestRuns : Prop :=
  ∀ (i : Instr) (s : State) (ms : List Move), i.wf = true → isRequest i = true →
    s.moves = assembleRequest i ++ ms →
    ∃ opw arg : Word, encode i = .request opw arg ∧
      step s = .next { s with moves := .regWrite 0x00 opw :: ms, arg := arg } ∧
      step { s with moves := .regWrite 0x00 opw :: ms, arg := arg } =
        exec i { s with moves := ms, arg := arg, opw := opw }

/-- R232. With no move to come the block does nothing on its own; and only a host write of `OPW` or reset changes the
bus log. (Log entry 7.) -/
def Obligations.OnlyRequestsReachTheBus : Prop :=
  (∀ s : State, s.moves = [] → step s = .next s) ∧
  ∀ (s t : State) (m : Move) (ms : List Move), s.moves = m :: ms → step s = .next t →
    (∀ v, m ≠ .regWrite 0x00 v) → m ≠ .reset → t.log = s.log

/-! ## Registers (10_state.md) -/

/-- R22, R24, R25, R26. The fields of the read-only registers are at the bits of their tables, and reserved bits read
0. -/
def Obligations.RegisterFieldsReadInPlace : Prop :=
  ∀ s : State,
    (readReg 0x08 s).toNat =
      (match s.life with | .uninit => 0 | .initializing => 1 | .ready => 2 | .closed => 3) +
        2 ^ 3 * s.handleOpen.toNat + 2 ^ 4 * s.result.toNat + 2 ^ 8 * s.cause.toNat ∧
    (readReg 0x0C s).toNat =
      (match s.variant with | .A => 0 | .B => 1) + 2 ^ 8 * s.busIndex.toNat + 2 ^ 16 * s.devAddr.toNat ∧
    (readReg 0x10 s).toNat = s.width.toNat + 2 ^ 16 * s.height.toNat ∧
    (readReg 0x14 s).toNat = s.pages.toNat ∧
    (readReg 0x18 s).toNat = s.packOut.toNat

/-- R21, R28, R27. A host read of an aligned offset gives the register there, 0 at `0x20` and above, and changes
nothing in the block: the value comes to `readData`, the model's own field. The fields of `0x08` to `0x18` are those
of `RegisterFieldsReadInPlace`. (Log entries 7, 11, 15.) -/
def Obligations.HostReadHasNoSideEffect : Prop :=
  ∀ (s : State) (offset : Nat) (ms : List Move), s.moves = .regRead offset :: ms → offset % 4 = 0 →
    step s = .next { s with
      moves := ms
      readData :=
        if offset = 0x00 then s.opw else if offset = 0x04 then s.arg
        else if 0x20 ≤ offset then 0
        else if offset = 0x1C then s.txCount else readReg offset s }

/-- R21, R28. A host write of `ARG` only stores the value; a host write of a read-only register, or at `0x20` and
above, is ignored. (Log entries 7, 15.) -/
def Obligations.HostWriteStoresArgOnly : Prop :=
  ∀ (s : State) (offset : Nat) (v : Word) (ms : List Move), s.moves = .regWrite offset v :: ms → offset % 4 = 0 →
    (offset = 0x04 → step s = .next { s with moves := ms, arg := v }) ∧
    (0x08 ≤ offset → step s = .next { s with moves := ms })

/-- R54. A host access to a register at an offset that is not word-aligned is refused. (Log entries 7, 15.) -/
def Obligations.UnalignedRegisterAccessIsRefused : Prop :=
  ∀ (s : State) (offset : Nat) (v : Word) (ms : List Move), offset % 4 ≠ 0 →
    (s.moves = .regRead offset :: ms → step s = .refused (.unalignedRegister offset)) ∧
    (s.moves = .regWrite offset v :: ms → step s = .refused (.unalignedRegister offset))

/-- R34. Reset sets every piece of the block's state to its value in R34's table, from every state, and so issues no
bus event (R231). That it clears `FAULT` from a faulted state too is the model's reading of R34 against R31 and R210.
(Log entries 7, 10.) -/
def Obligations.ResetSetsEveryValue : Prop :=
  ∀ (s : State) (ms : List Move), s.moves = .reset :: ms →
    ∃ t, step s = .next t ∧
      (t.opw = 0 ∧ t.arg = 0 ∧ t.life = .uninit ∧ t.handleOpen = false ∧ t.result = 0 ∧ t.cause = 0) ∧
      (t.variant = .A ∧ t.busIndex = 0 ∧ t.devAddr = 0 ∧ t.width = 0 ∧ t.height = 0 ∧ t.pages = 0) ∧
      (t.packOut = 0 ∧ t.txCount = 0 ∧ t.fault = false ∧ t.log = []) ∧
      (∀ a, Memory.get t.fb a = none ∧ Memory.get t.pbuf a = none)

/-! ## Memories (20_memory.md) -/

/-- R59 (a). A host write of pixels or bytes is what those cells then hold, and every other cell of both memories is
as before. (Log entries 7, 13, 14.) -/
def Obligations.HostMemoryWriteIsRead : Prop :=
  ∀ (s t : State) (ms : List Move), step s = .next t →
    (∀ i px, s.moves = .fbWrite i px :: ms →
      (∀ a, Memory.get t.fb a = if a = i then some px else Memory.get s.fb a) ∧ t.pbuf = s.pbuf) ∧
    (∀ i bs, s.moves = .pbufWrite i bs :: ms →
      (∀ a, Memory.get t.pbuf a = if i ≤ a ∧ a < i + bs.length then bs[a - i]? else Memory.get s.pbuf a) ∧
        t.fb = s.fb)

/-- R41. A host read of a cell gives the value the cell holds, and changes nothing in the block; a read of an
unwritten cell is a model fault that names it. That the value comes zero-extended to `readData`, and that a host's
read of an unwritten cell faults (R44 speaks of a request), are the model's choices. (Log entries 7, 9, 11, 12, 24.) -/
def Obligations.HostMemoryReadGivesTheCell : Prop :=
  ∀ (s : State) (ms : List Move),
    (∀ i, s.moves = .fbRead i :: ms →
      (∀ px, Memory.get s.fb i = some px →
        step s = .next { s with moves := ms, readData := if px then 1 else 0 }) ∧
      (Memory.get s.fb i = none →
        step s = .fault (.unwrittenFb i { s with moves := ms, fault := true }))) ∧
    (∀ i, s.moves = .pbufRead i :: ms → i < 65536 →
      (∀ b, Memory.get s.pbuf i = some b → step s = .next { s with moves := ms, readData := b.setWidth 32 }) ∧
      (Memory.get s.pbuf i = none →
        step s = .fault (.unwrittenPbuf i { s with moves := ms, fault := true })))

/-- R86. `FBCLR` writes 0 to `FB[0 .. WIDTH*HEIGHT)` and `FBSET x, y` writes 1 to `FB[y*WIDTH + x]`; every other cell,
and everything else, is as before. That `FBSET` has a cell at every index, and that both use the geometry in the
registers before the first INIT too, are the model's choices. (Log entries 7, 14.) -/
def Obligations.CanvasActionsWriteFb : Prop :=
  ∀ (s : State) (ms : List Move),
    (s.moves = .fbClear :: ms → ∃ fb', step s = .next { s with moves := ms, fb := fb' } ∧
      ∀ a, Memory.get fb' a = if a < s.width.toNat * s.height.toNat then some false else Memory.get s.fb a) ∧
    (∀ x y, s.moves = .fbSet x y :: ms → ∃ fb', step s = .next { s with moves := ms, fb := fb' } ∧
      ∀ a, Memory.get fb' a = if a = y * s.width.toNat + x then some true else Memory.get s.fb a)

/-- R42, R28. No instruction writes FB or PBUF, and none writes `OPW` or `ARG`: the block only reads its inputs. -/
def Obligations.BlockNeverWritesItsInputs : Prop :=
  ∀ (i : Instr) (s t : State), exec i s = .next t →
    t.fb = s.fb ∧ t.pbuf = s.pbuf ∧ t.opw = s.opw ∧ t.arg = s.arg

/-- R45. No instruction depends on an FB cell at or beyond `WIDTH * 8 * PAGES`: two states that differ only there come to
the same outcome. The rows that truncation drops are among these cells (43_render.md R186). -/
def Obligations.CellsBeyondTheFrameAreNeverRead : Prop :=
  ∀ (i : Instr) (s : State) (fb' : List (Nat × Pixel)),
    (∀ a, a < s.width.toNat * 8 * s.pages.toNat → Memory.get fb' a = Memory.get s.fb a) →
    exec i { s with fb := fb' } = withFb fb' (exec i s)

/-! ## Chunking (20_memory.md R51, R52) -/

/-- R51. The chunks of a sequence: `ceil_div(len, 32)` of them, in order making up the sequence, every one but the last of
32 bytes and the last of between 1 and 32. -/
def Obligations.ChunksSplitTheSequence : Prop :=
  ∀ seq : List Byte,
    (chunks 32 seq).length = (seq.length + 31) / 32 ∧
    (chunks 32 seq).flatten = seq ∧
    ∀ k, (h : k < (chunks 32 seq).length) →
      (chunks 32 seq)[k].length = (if k + 1 < (chunks 32 seq).length then 32
        else seq.length - 32 * ((seq.length + 31) / 32 - 1)) ∧
      1 ≤ (chunks 32 seq)[k].length ∧ (chunks 32 seq)[k].length ≤ 32

/-! ## The life-cycle requests (41_sequencer.md) -/

/-- R145. INIT from `UNINIT` with a legal geometry and its extra bytes written, every answer `ok`: the open, the init
table in one transaction, the extras in transactions of their own; then `READY`. Nothing else changes. (Log entries 1,
2, 3, 6, 21.) -/
def Obligations.InitReachesReady : Prop :=
  ∀ (var : Variant) (width : BitVec 9) (height : BitVec 16) (bus : BitVec 8) (addr : BitVec 7) (nextra : BitVec 16)
    (s : State) (extra : List Byte) (rest : List Answer),
    s.life = .uninit →
    PagesLegal var height →
    extra.length = nextra.toNat → PbufHolds s extra →
    s.draws = List.replicate (2 + (nextra.toNat + 31) / 32) .ok ++ rest →
    exec (.init var width height bus addr nextra) s = .next
      { afterRequest 0 0 (BitVec.ofNat 32 (1 + (nextra.toNat + 31) / 32)) s with
        life := .ready
        handleOpen := true
        variant := var
        busIndex := bus
        devAddr := addr
        width := width.setWidth 16
        height := height
        pages := BitVec.ofNat 16 (height.toNat / 8)
        draws := rest
        log := s.log ++ .opened bus addr .ok :: .write (0x00 :: initTable Config.opc var) .ok ::
          sentOk (transactions 0x00 extra) }

/-- R145. INIT when the open fails: back to `UNINIT`, `ERR_OPEN`, with the geometry and the configuration loaded. (Log
entries 2, 3, 6, 21.) -/
def Obligations.InitOpenFailureReturnsToUninit : Prop :=
  ∀ (var : Variant) (width : BitVec 9) (height : BitVec 16) (bus : BitVec 8) (addr : BitVec 7) (nextra : BitVec 16)
    (s : State) (extra : List Byte) (rest : List Answer),
    s.life = .uninit →
    PagesLegal var height →
    extra.length = nextra.toNat → PbufHolds s extra →
    s.draws = .fail :: rest →
    exec (.init var width height bus addr nextra) s = .next
      { afterRequest 2 0 0 s with
        variant := var
        busIndex := bus
        devAddr := addr
        width := width.setWidth 16
        height := height
        pages := BitVec.ofNat 16 (height.toNat / 8)
        draws := rest
        log := s.log ++ [.opened bus addr .fail] }

/-- R145. INIT when the `k+1`-th write fails: the later ones are not sent, `ERR_WRITE/CAUSE_CMD`, `CLOSED` with the
connection open. (Log entries 1, 2, 3, 6, 21.) -/
def Obligations.InitWriteFailureCloses : Prop :=
  ∀ (var : Variant) (width : BitVec 9) (height : BitVec 16) (bus : BitVec 8) (addr : BitVec 7) (nextra : BitVec 16)
    (s : State) (extra : List Byte) (rest : List Answer) (k : Nat)
    (hk : k < ((0x00 :: initTable Config.opc var) :: transactions 0x00 extra).length),
    s.life = .uninit →
    PagesLegal var height →
    extra.length = nextra.toNat → PbufHolds s extra →
    s.draws = .ok :: (List.replicate k .ok ++ .fail :: rest) →
    exec (.init var width height bus addr nextra) s = .next
      { afterRequest 3 1 (BitVec.ofNat 32 (k + 1)) s with
        life := .closed
        handleOpen := true
        variant := var
        busIndex := bus
        devAddr := addr
        width := width.setWidth 16
        height := height
        pages := BitVec.ofNat 16 (height.toNat / 8)
        draws := rest
        log := s.log ++ .opened bus addr .ok ::
          (sentOk (((0x00 :: initTable Config.opc var) :: transactions 0x00 extra).take k) ++
            [.write ((0x00 :: initTable Config.opc var) :: transactions 0x00 extra)[k] .fail]) }

/-- R145, R202. INIT from `UNINIT` with an illegal geometry is refused and leaves `GEOM`, `PAGES` and `CFG` as they
were. (Log entries 3, 6, 21.) -/
def Obligations.InitRefusesIllegalGeometry : Prop :=
  ∀ (var : Variant) (width : BitVec 9) (height : BitVec 16) (bus : BitVec 8) (addr : BitVec 7) (nextra : BitVec 16)
    (s : State), s.life = .uninit →
    (height.toNat / 8 = 0 ∨ (var = .A ∧ 16 < height.toNat / 8) ∨ (var = .B ∧ 256 < height.toNat / 8)) →
    exec (.init var width height bus addr nextra) s = .next (afterRequest 1 2 0 s)

/-- R126, R127. The init tables, byte for byte, for every `OPC`. -/
def Obligations.InitTablesAreByteExact : Prop :=
  ∀ o : Opc,
    initTable o .A =
      [o.displayOff, o.setMemoryMode, o.setHighColumn, 0xB0, 0xC8, o.setLowColumn, 0x10, 0x40, o.setContrast, 0x7F,
       o.segmentRemap, o.normalDisplay, o.setMultiplex, 0x3F, o.displayAllOnResume, o.setDisplayOffset, 0x00,
       o.setClockDiv, 0xF0, o.setPrecharge, 0x22, o.setComPins, 0x12, o.setVcomDetect, 0x20, o.chargePump, 0x14,
       o.displayOn] ∧
    initTable o .B =
      [o.displayOff, o.setClockDiv, 0x80, o.setMultiplex, 0x3F, o.setDisplayOffset, 0x00, o.setStartLine,
       o.chargePump, 0x14, o.setMemoryMode, 0x00, o.segmentRemap, o.comScanDec, o.setComPins, 0x12, o.setContrast,
       0xCF, o.setPrecharge, 0xF1, o.setVcomDetect, 0x40, o.displayAllOnResume, o.normalDisplay, o.displayOn]

/-- R146, R147, R151. WRCMD and WRDATA in `READY`, their bytes written and every answer `ok`: the bytes go out in
`ceil_div(len, 32)` transactions with the mode prefix, and nothing else changes. (Log entries 2, 3, 6.) -/
def Obligations.WriteRequestsSendTheSequence : Prop :=
  ∀ (len : BitVec 16) (s : State) (seq : List Byte) (rest : List Answer),
    s.life = .ready → seq.length = len.toNat → PbufHolds s seq →
    s.draws = List.replicate ((len.toNat + 31) / 32) .ok ++ rest →
    exec (.wrcmd len) s = .next
      { afterRequest 0 0 (BitVec.ofNat 32 ((len.toNat + 31) / 32)) s with
        draws := rest
        log := s.log ++ sentOk (transactions 0x00 seq) } ∧
    exec (.wrdata len) s = .next
      { afterRequest 0 0 (BitVec.ofNat 32 ((len.toNat + 31) / 32)) s with
        draws := rest
        log := s.log ++ sentOk (transactions 0x40 seq) }

/-- R146, R147. WRCMD and WRDATA when the `k+1`-th transaction fails: it ends the request, the state stays `READY`.
(Log entries 2, 3, 6.) -/
def Obligations.WriteRequestsStopAtTheFirstFailure : Prop :=
  ∀ (len : BitVec 16) (s : State) (seq : List Byte) (rest : List Answer) (k : Nat),
    s.life = .ready → seq.length = len.toNat → PbufHolds s seq →
    s.draws = List.replicate k .ok ++ .fail :: rest →
    (∀ hk : k < (transactions 0x00 seq).length,
      exec (.wrcmd len) s = .next
        { afterRequest 3 1 (BitVec.ofNat 32 (k + 1)) s with
          draws := rest
          log := s.log ++ sentOk ((transactions 0x00 seq).take k) ++ [.write (transactions 0x00 seq)[k] .fail] }) ∧
    (∀ hk : k < (transactions 0x40 seq).length,
      exec (.wrdata len) s = .next
        { afterRequest 3 2 (BitVec.ofNat 32 (k + 1)) s with
          draws := rest
          log := s.log ++ sentOk ((transactions 0x40 seq).take k) ++ [.write (transactions 0x40 seq)[k] .fail] })

/-- R148. CLOSE from `READY` or `CLOSED`: with an open connection it calls `BusClose`, which clears `HANDLE_OPEN` if
it answers `ok` and gives `ERR_CLOSE` if not; with none it issues no bus event and ends `OK`. The state is `CLOSED`.
(Log entries 2, 3, 6.) -/
def Obligations.CloseReleasesTheConnection : Prop :=
  ∀ (s : State), (s.life = .ready ∨ s.life = .closed) →
    (s.handleOpen = false → exec .close s = .next { afterRequest 0 0 0 s with life := .closed }) ∧
    (∀ rest, s.handleOpen = true → s.draws = .ok :: rest →
      exec .close s = .next { afterRequest 0 0 0 s with
        life := .closed, handleOpen := false, draws := rest, log := s.log ++ [.closed .ok] }) ∧
    (∀ rest, s.handleOpen = true → s.draws = .fail :: rest →
      exec .close s = .next { afterRequest 4 0 0 s with
        life := .closed, draws := rest, log := s.log ++ [.closed .fail] })

/-- R17. A request that the life-cycle state does not accept ends `ERR_PRECOND/CAUSE_STATE` with nothing else changed,
whatever its operands: INIT outside `UNINIT`, CLOSE in `UNINIT`, every other request outside `READY`. (Log entries 3,
6, 19, 21.) -/
def Obligations.RequestsOutsideTheirStateAreRefused : Prop :=
  ∀ s : State,
    (s.life ≠ .uninit → ∀ var width height bus addr nextra,
      exec (.init var width height bus addr nextra) s = .next (afterRequest 1 1 0 s)) ∧
    (s.life = .uninit → exec .close s = .next (afterRequest 1 1 0 s)) ∧
    (s.life ≠ .ready → ∀ len col pg fbw fbh mode1,
      exec (.wrcmd len) s = .next (afterRequest 1 1 0 s) ∧
      exec (.wrdata len) s = .next (afterRequest 1 1 0 s) ∧
      exec (.render fbw fbh mode1) s = .next (afterRequest 1 1 0 s) ∧
      exec (.pack col pg) s = .next (afterRequest 1 1 0 s))

/-- R81. The three reserved rows do exactly this in every state: `TXCOUNT <- 0` and `ERR_ILLEGAL/CAUSE_RSV_OP`. (Log
entries 3, 6.) -/
def Obligations.ReservedRowsRaiseIllegal : Prop :=
  ∀ (s : State) (op : BitVec 4) (hi : BitVec 28) (arg : Word),
    exec (.reservedOp0 hi arg) s = .next (afterRequest 5 1 0 s) ∧
    exec (.reservedOp7 hi arg) s = .next (afterRequest 5 1 0 s) ∧
    exec (.reservedOp8F op hi arg) s = .next (afterRequest 5 1 0 s)

/-! ## The bit unpacker (42_bit_unpacker.md) -/

/-- R161. The byte of column `x` of page `p` is read exactly if its eight cells are written, and its bit `n` is the pixel at
column `x`, row `8p + n`: unpacking by bit position recovers the pixels (R165). -/
def Obligations.UnpackingRecoversThePixels : Prop :=
  ∀ (fb : List (Nat × Pixel)) (width x p : Nat),
    ((∃ b, packColumn fb width x p = .ok b) ↔
      ∀ n, n < 8 → (Memory.get fb ((8 * p + n) * width + x)).isSome = true) ∧
    ∀ b, packColumn fb width x p = .ok b →
      (∀ n, n < 8 → Memory.get fb ((8 * p + n) * width + x) = some (b.getLsbD n)) ∧
      b.toNat = ((List.range 8).map fun n => (b.getLsbD n).toNat * 2 ^ n).sum

/-- R162, R163. Both shift-register forms give the byte of R161 on every column, and the 9-bit register ends with
`S[8] = 0`. -/
def Obligations.ShiftRegisterFormsAgree : Prop :=
  ∀ (px : List Pixel), px.length = 8 →
    packByte9 px = packByte px ∧ (shift9 px).getLsbD 8 = false ∧ packByte8 px 0 = packByte px

/-- R164. The packing is a bijection from 8 pixels to a byte. -/
def Obligations.PackingIsABijection : Prop :=
  (∀ px px' : List Pixel, px.length = 8 → px'.length = 8 → packByte px = packByte px' → px = px') ∧
    ∀ b : Byte, ∃ px : List Pixel, px.length = 8 ∧ packByte px = b

/-- R166, R161. PACK in `READY` with its column and page in range and its 8 cells written: bit `n` of `PACKOUT` is the
pixel at row `8*pg + n`; no bus event, and nothing else changes. (Log entries 3, 6.) -/
def Obligations.PackReadsOneColumn : Prop :=
  ∀ (col : BitVec 16) (pg : BitVec 8) (s : State),
    s.life = .ready → col.toNat < s.width.toNat → pg.toNat < s.pages.toNat →
    (∀ n, n < 8 → PixelWritten s col.toNat (8 * pg.toNat + n)) →
    ∃ b : Byte, (∀ n, n < 8 → b.getLsbD n = pixelAt s col.toNat (8 * pg.toNat + n)) ∧
      exec (.pack col pg) s = .next { afterRequest 0 0 0 s with packOut := b }

/-- R166, R202. PACK in `READY` with its column or page out of range ends `ERR_PRECOND/CAUSE_RANGE`, `PACKOUT`
unchanged. (Log entries 3, 6.) -/
def Obligations.PackRefusesOutOfRange : Prop :=
  ∀ (col : BitVec 16) (pg : BitVec 8) (s : State), s.life = .ready →
    (s.width.toNat ≤ col.toNat ∨ s.pages.toNat ≤ pg.toNat) →
    exec (.pack col pg) s = .next (afterRequest 1 5 0 s)

/-! ## The reorder engine (43_render.md) -/

/-- R178, R185. RENDER on Variant A, its frame written and every answer `ok`: for each page its page select and then
its data, columns ascending, and nothing else; `TXCOUNT` is the count of R184. (Log entries 2, 3, 6, 19, 21.) -/
def Obligations.RenderASendsTheFrame : Prop :=
  ∀ (fbw : BitVec 9) (s : State) (rest : List Answer),
    s.life = .ready → s.variant = .A → fbw.toNat = s.width.toNat → FrameWritten s →
    s.draws = List.replicate (s.pages.toNat * (1 + (s.width.toNat + 31) / 32)) .ok ++ rest →
    exec (.render fbw s.height true) s = .next
      { afterRequest 0 0 (BitVec.ofNat 32 (s.pages.toNat * (1 + (s.width.toNat + 31) / 32))) s with
        draws := rest
        log := s.log ++ sentOk (frameTransactionsA s) }

/-- R180, R181, R185. RENDER on Variant B, its frame written and every answer `ok`: the range command in one
transaction, then the data of all pages as one sequence, columns descending, and nothing else; `TXCOUNT` is the count
of R184. (Log entries 1, 2, 3, 6, 21.) -/
def Obligations.RenderBSendsTheFrame : Prop :=
  ∀ (fbw : BitVec 9) (s : State) (rest : List Answer),
    s.life = .ready → s.variant = .B → fbw.toNat = s.width.toNat → FrameWritten s → GeometryLegal s →
    s.draws = List.replicate (1 + (s.width.toNat * s.pages.toNat + 31) / 32) .ok ++ rest →
    exec (.render fbw s.height true) s = .next
      { afterRequest 0 0 (BitVec.ofNat 32 (1 + (s.width.toNat * s.pages.toNat + 31) / 32)) s with
        draws := rest
        log := s.log ++ sentOk (frameTransactionsB s) }

/-- R188. RENDER when the `k+1`-th transaction of the frame fails: it ends the request with `ERR_WRITE`, the cause by
that transaction's prefix; no later transaction is sent and the state stays `READY`. (Log entries 1, 2, 3, 6, 21.) -/
def Obligations.RenderStopsAtTheFirstFailure : Prop :=
  ∀ (fbw : BitVec 9) (s : State) (rest : List Answer) (k : Nat) (hk : k < (frameTransactions s).length),
    s.life = .ready → fbw.toNat = s.width.toNat → FrameWritten s → GeometryLegal s →
    s.draws = List.replicate k .ok ++ .fail :: rest →
    exec (.render fbw s.height true) s = .next
      { afterRequest 3 (if (frameTransactions s)[k].head? = some 0x00 then 1 else 2) (BitVec.ofNat 32 (k + 1)) s with
        draws := rest
        log := s.log ++ sentOk ((frameTransactions s).take k) ++ [.write (frameTransactions s)[k] .fail] }

/-- R176, R207. RENDER in `READY` with `mode1 = 0` ends `CAUSE_MODE` whatever the size; with `mode1 = 1` and another
width or height than the configured one, `CAUSE_SIZE`. Nothing else changes. (Log entries 3, 6, 21.) -/
def Obligations.RenderChecksModeThenSize : Prop :=
  ∀ (fbw : BitVec 9) (fbh : BitVec 16) (s : State), s.life = .ready →
    exec (.render fbw fbh false) s = .next (afterRequest 1 4 0 s) ∧
    ((fbw.toNat ≠ s.width.toNat ∨ fbh ≠ s.height) →
      exec (.render fbw fbh true) s = .next (afterRequest 1 3 0 s))

/-- R190. A RENDER that passes its checks reads exactly the cells `fb_index(x, y)` with `x < WIDTH` and `y < 8*PAGES`:
it completes if and only if every one of them has been written, whatever the transport answers. (Log entry 21.) -/
def Obligations.RenderReadsExactlyTheFrame : Prop :=
  ∀ (fbw : BitVec 9) (s : State), s.life = .ready → fbw.toNat = s.width.toNat →
    ((∃ t, exec (.render fbw s.height true) s = .next t) ↔ FrameWritten s)

/-- R183. The mirror law: Variant A's byte for page `p` and column `x` is Variant B's byte at
`p*WIDTH + (WIDTH - 1 - x)`, for the same FB; both are that column's packed byte. -/
def Obligations.VariantsMirrorEachPage : Prop :=
  ∀ (fb : List (Nat × Pixel)) (width pages : Nat) (data : List (List Byte)) (buf : List Byte),
    frameDataA fb width pages = .ok data → frameDataB fb width pages = .ok buf →
    buf.length = width * pages ∧
    ∀ p x, p < pages → x < width →
      ∃ b, packColumn fb width x p = .ok b ∧ (data[p]?.bind fun d => d[x]?) = some b ∧
        buf[p * width + (width - 1 - x)]? = some b

/-- R182. Variant B's buffer in closed form. -/
def Obligations.VariantBBufferInClosedForm : Prop :=
  ∀ (fb : List (Nat × Pixel)) (width pages : Nat) (buf : List Byte), frameDataB fb width pages = .ok buf →
    buf.length = width * pages ∧
    ∀ k, (h : k < buf.length) → packColumn fb width (width - 1 - k % width) (k / width) = .ok buf[k]

/-! ## The wire vocabulary (40_command_vocabulary.md) -/

/-- R103, R105, R106, R108 to R112, R115, R117 to R120. The opcodes whose operands are the same for both variants: the
sequencer emits the opcode and its operand bytes, and nothing else changes, no flag and no register. (Log entries 1,
6.) -/
def Obligations.FixedOpcodesEmitTheirBytes : Prop :=
  ∀ s : State,
    exec .displayOff s = .next (afterEmit [Config.opc.displayOff] s) ∧
    exec .setHighColumn s = .next (afterEmit [Config.opc.setHighColumn, 0xB0, 0xC8] s) ∧
    exec .setLowColumn s = .next (afterEmit [Config.opc.setLowColumn, 0x10, 0x40] s) ∧
    exec .segmentRemap s = .next (afterEmit [Config.opc.segmentRemap] s) ∧
    exec .normalDisplay s = .next (afterEmit [Config.opc.normalDisplay] s) ∧
    exec .setMultiplex s = .next (afterEmit [Config.opc.setMultiplex, 0x3F] s) ∧
    exec .displayAllOnResume s = .next (afterEmit [Config.opc.displayAllOnResume] s) ∧
    exec .setDisplayOffset s = .next (afterEmit [Config.opc.setDisplayOffset, 0x00] s) ∧
    exec .setComPins s = .next (afterEmit [Config.opc.setComPins, 0x12] s) ∧
    exec .chargePump s = .next (afterEmit [Config.opc.chargePump, 0x14] s) ∧
    exec .displayOn s = .next (afterEmit [Config.opc.displayOn] s) ∧
    exec .setStartLine s = .next (afterEmit [Config.opc.setStartLine] s) ∧
    exec .comScanDec s = .next (afterEmit [Config.opc.comScanDec] s)

/-- R104, R107, R113, R114, R116. The opcodes whose operands the two init tables give differently: the operand is that
of the configured variant's table, and before any INIT has passed its checks Variant A's, which is the model's choice.
(Log entries 1, 6, 23.) -/
def Obligations.VariantOpcodesEmitTheirBytes : Prop :=
  ∀ s : State,
    exec .setMemoryMode s = .next (afterEmit
      (Config.opc.setMemoryMode :: (match s.variant with | .A => [] | .B => [0x00])) s) ∧
    exec .setContrast s = .next (afterEmit
      [Config.opc.setContrast, match s.variant with | .A => 0x7F | .B => 0xCF] s) ∧
    exec .setClockDiv s = .next (afterEmit
      [Config.opc.setClockDiv, match s.variant with | .A => 0xF0 | .B => 0x80] s) ∧
    exec .setPrecharge s = .next (afterEmit
      [Config.opc.setPrecharge, match s.variant with | .A => 0x22 | .B => 0xF1] s) ∧
    exec .setVcomDetect s = .next (afterEmit
      [Config.opc.setVcomDetect, match s.variant with | .A => 0x20 | .B => 0x40] s)

/-- R121, R122. COLUMN_ADDR and PAGE_ADDR emit the range `0x00` to `WIDTH - 1` and `0x00` to `PAGES - 1`, for the
geometry in the registers; before the first INIT they emit the opcode, `0x00` and one more byte, for which the spec
states no value. (Log entries 1, 4, 6.) -/
def Obligations.RangeOpcodesEmitTheirBytes : Prop :=
  ∀ s : State,
    (∃ b, exec .columnAddr s = .next (afterEmit [Config.opc.columnAddr, 0x00, b] s) ∧
      (1 ≤ s.width.toNat → s.width.toNat ≤ 256 → b.toNat = s.width.toNat - 1)) ∧
    (∃ b, exec .pageAddr s = .next (afterEmit [Config.opc.pageAddr, 0x00, b] s) ∧
      (1 ≤ s.pages.toNat → s.pages.toNat ≤ 256 → b.toNat = s.pages.toNat - 1))

/-- R123, R124. The page-select rows emit their bytes; run in order they stage the page-select command of their page
(43_render.md R177). (Log entry 6.) -/
def Obligations.PageSelectRowsEmitTheirBytes : Prop :=
  ∀ (p : BitVec 4) (s : State),
    exec (.pageSelect p) s = .next (afterEmit [0xB0 + p.setWidth 8] s) ∧
    exec .pageColLo s = .next (afterEmit [0x02] s) ∧
    exec .pageColHi s = .next (afterEmit [0x10] s) ∧
    execRows [.pageSelect p, .pageColLo, .pageColHi] s = .next (afterEmit (pageSelA p.toNat) s) ∧
    pageSelA p.toNat = [0xB0 + p.setWidth 8, 0x02, 0x10]

/-- R83. A mode prefix begins the transaction sequence of its kind, with no byte yet, and nothing else changes. (Log
entry 6.) -/
def Obligations.ModePrefixRowsBeginTheirKind : Prop :=
  ∀ s : State,
    exec .prefixCmd s = .next { s with staged := ⟨.command, []⟩ } ∧
    exec .prefixData s = .next { s with staged := ⟨.data, []⟩ } ∧
    TxKind.command.modeByte = 0x00 ∧ TxKind.data.modeByte = 0x40

/-- The rows of the opcode table, run after a command prefix in the order of the configured variant's init table,
stage exactly that table; and nothing else changes. (Log entries 1, 6, 23.) -/
def Obligations.RowsInTableOrderStageTheInitTable : Prop :=
  ∀ s : State,
    execRows (.prefixCmd :: initRows s.variant) s =
      .next { s with staged := ⟨.command, initTable Config.opc s.variant⟩ }

/-! ## Rules of the whole machine -/

/-- R44, R210. A request that passes its checks and reads an unwritten cell ends in a model fault that names such a
cell, one of those the request reads, with `FAULT = 1`, no bus event and no `RESULT`. (Log entries 6, 9, 21, 24.) -/
def Obligations.UnwrittenInputsFault : Prop :=
  ∀ s : State,
    (∀ len : BitVec 16, s.life = .ready → (∃ a, a < len.toNat ∧ Memory.get s.pbuf a = none) →
      ∃ a, a < len.toNat ∧ Memory.get s.pbuf a = none ∧
        exec (.wrcmd len) s = .fault (.unwrittenPbuf a (faultedState s)) ∧
        exec (.wrdata len) s = .fault (.unwrittenPbuf a (faultedState s))) ∧
    (∀ var width height bus addr (nextra : BitVec 16), s.life = .uninit →
      PagesLegal var height →
      (∃ a, a < nextra.toNat ∧ Memory.get s.pbuf a = none) →
      ∃ a, a < nextra.toNat ∧ Memory.get s.pbuf a = none ∧
        exec (.init var width height bus addr nextra) s = .fault (.unwrittenPbuf a (faultedState s))) ∧
    (∀ (col : BitVec 16) (pg : BitVec 8), s.life = .ready → col.toNat < s.width.toNat → pg.toNat < s.pages.toNat →
      (∃ n, n < 8 ∧ ¬ PixelWritten s col.toNat (8 * pg.toNat + n)) →
      ∃ n, n < 8 ∧ ¬ PixelWritten s col.toNat (8 * pg.toNat + n) ∧
        exec (.pack col pg) s =
          .fault (.unwrittenFb ((8 * pg.toNat + n) * s.width.toNat + col.toNat) (faultedState s))) ∧
    (∀ fbw : BitVec 9, s.life = .ready → fbw.toNat = s.width.toNat → ¬ FrameWritten s →
      ∃ x y, x < s.width.toNat ∧ y < 8 * s.pages.toNat ∧ ¬ PixelWritten s x y ∧
        exec (.render fbw s.height true) s = .fault (.unwrittenFb (y * s.width.toNat + x) (faultedState s)))

/-- R205, R200. INIT, WRCMD and WRDATA with their checks passed and their bytes written end in a next state whatever
the transport answers, supplied or not, and with a result their rules name. (Log entries 2, 17, 21.) -/
def Obligations.AcceptedRequestsEndWhateverTheTransportAnswers : Prop :=
  ∀ (s : State) (n : BitVec 16) (seq : List Byte), seq.length = n.toNat → PbufHolds s seq →
    (∀ var width height bus addr, s.life = .uninit →
      PagesLegal var height →
      ∃ t, exec (.init var width height bus addr n) s = .next t ∧
        ((t.life = .ready ∧ t.handleOpen = true ∧ t.result = 0 ∧ t.cause = 0) ∨
          (t.life = .uninit ∧ t.handleOpen = s.handleOpen ∧ t.result = 2 ∧ t.cause = 0) ∨
          (t.life = .closed ∧ t.handleOpen = true ∧ t.result = 3 ∧ t.cause = 1))) ∧
    (s.life = .ready → ∃ t, exec (.wrcmd n) s = .next t ∧ t.life = .ready ∧
      ((t.result = 0 ∧ t.cause = 0) ∨ (t.result = 3 ∧ t.cause = 1))) ∧
    (s.life = .ready → ∃ t, exec (.wrdata n) s = .next t ∧ t.life = .ready ∧
      ((t.result = 0 ∧ t.cause = 0) ∨ (t.result = 3 ∧ t.cause = 2)))

/-- R47, R50. The bus log is append-only under every instruction, and every event appended carries a transaction of the
format: one mode prefix and 1 to 32 bytes. -/
def Obligations.LogGrowsByValidTransactions : Prop :=
  ∀ (i : Instr) (s t : State), exec i s = .next t →
    ∃ es, t.log = s.log ++ es ∧ ∀ e ∈ es, validEvent e = true

/-- R204, R208. The first `fail` answer ends a request: every event it appends but the last was answered `ok`, and the last
was answered `fail` exactly if the result is `ERR_OPEN`, `ERR_WRITE` or `ERR_CLOSE`. -/
def Obligations.FirstFailureEndsTheRequest : Prop :=
  ∀ (i : Instr) (s t : State), isRequest i = true → exec i s = .next t →
    ∃ es, t.log = s.log ++ es ∧ (∀ e ∈ es.dropLast, e.answer = .ok) ∧
      ((∃ e, es.getLast? = some e ∧ e.answer = .fail) ↔ (t.result = 2 ∨ t.result = 3 ∨ t.result = 4))

/-- R203. A precondition error never follows a bus event of the same request; neither does an illegal encoding. -/
def Obligations.PreconditionErrorsTouchNoBus : Prop :=
  ∀ (i : Instr) (s t : State), isRequest i = true → exec i s = .next t → (t.result = 1 ∨ t.result = 5) →
    t.log = s.log ∧ t.txCount = 0 ∧ t.life = s.life ∧ t.handleOpen = s.handleOpen

/-- R27. `TXCOUNT` counts the `BusWrite` calls of the request, a failing one included, and no other event. (Log entry
19.) -/
def Obligations.TxCountCountsTheWrites : Prop :=
  ∀ (i : Instr) (s t : State), isRequest i = true → exec i s = .next t →
    ∃ es, t.log = s.log ++ es ∧ t.txCount = BitVec.ofNat 32 (es.countP isWrite)

/-- R23. No request reads `RESULT` or `CAUSE`: the result of one request never changes what the next one does. -/
def Obligations.ResultsDoNotInfluenceRequests : Prop :=
  ∀ (i : Instr) (s t : State) (r c : BitVec 4), isRequest i = true → exec i s = .next t →
    exec i { s with result := r, cause := c } = .next t

/-- R149, R17. Only an INIT in `UNINIT` reaches `READY`, and after `CLOSED` no instruction leaves `CLOSED`. -/
def Obligations.OnlyInitReachesReady : Prop :=
  ∀ (i : Instr) (s t : State), exec i s = .next t →
    (s.life = .closed → t.life = .closed) ∧
    (t.life = .ready → s.life = .ready ∨
      (s.life = .uninit ∧ ∃ var width height bus addr nextra, i = .init var width height bus addr nextra))

/-- R24, R25, R26. Which instruction writes which register: only INIT writes `CFG`, `GEOM` and `PAGES`, only PACK writes
`PACKOUT`, and only INIT and CLOSE change `STATE` and `HANDLE_OPEN`. -/
def Obligations.RegistersHaveTheirOneWriter : Prop :=
  ∀ (i : Instr) (s t : State), exec i s = .next t →
    ((∀ var width height bus addr nextra, i ≠ .init var width height bus addr nextra) →
      t.variant = s.variant ∧ t.busIndex = s.busIndex ∧ t.devAddr = s.devAddr ∧
        t.width = s.width ∧ t.height = s.height ∧ t.pages = s.pages ∧
        (i ≠ .close → t.life = s.life ∧ t.handleOpen = s.handleOpen)) ∧
    ((∀ col pg, i ≠ .pack col pg) → t.packOut = s.packOut)

/-- R149. What holds in every observable state holds at reset. -/
def Obligations.InvariantAtReset : Prop := Inv State.reset

/-- R149. Every step from a state with the invariant that goes on gives a state with the invariant: the life cycle and
the log agree, the geometry is legal, no other report is written, `TXCOUNT` stays bounded, every transaction has the
format, and the memories keep their canonical form. (Log entries 7, 10.) -/
def Obligations.EveryStepKeepsTheInvariant : Prop :=
  ∀ s t : State, Inv s → step s = .next t → Inv t
end

