-- ==== Sys2Proof/Laws/Bits.lean ====
section
/-! SUPPORT. The bit fields of the request words and of the register words as numbers, and the fields of an assembled
word. -/

namespace Sys2Proof

/-! ## Widths and variants -/

/-- A width that can be encoded comes back from its encoding. -/
theorem widthOfField_fieldOfWidth {w : BitVec 9} (h : widthEncodable w = true) : widthOfField (fieldOfWidth w) = w := by
  simp only [widthEncodable, decide_eq_true_eq] at h
  apply BitVec.eq_of_toNat_eq
  simp only [widthOfField, fieldOfWidth, BitVec.toNat_add, BitVec.toNat_setWidth, BitVec.toNat_sub, BitVec.toNat_ofNat]
  omega

/-- Every 8-bit encoding is that of a width 1..256. -/
theorem widthOfField_encodable (a : BitVec 8) : widthEncodable (widthOfField a) = true := by
  have := a.isLt
  simp only [widthEncodable, widthOfField, decide_eq_true_eq, BitVec.toNat_add, BitVec.toNat_setWidth,
    BitVec.toNat_ofNat]
  omega

/-- The encoding of the width read from an encoding. -/
theorem fieldOfWidth_widthOfField (a : BitVec 8) : fieldOfWidth (widthOfField a) = a := by
  have := a.isLt
  apply BitVec.eq_of_toNat_eq
  simp only [widthOfField, fieldOfWidth, BitVec.toNat_add, BitVec.toNat_setWidth, BitVec.toNat_sub, BitVec.toNat_ofNat]
  omega

/-- A variant comes back from its bit. -/
@[simp] theorem variantOfBit_bit (v : Variant) : variantOfBit v.bit = v := by cases v <;> rfl

/-- A variant bit comes back from its variant. -/
@[simp] theorem bit_variantOfBit (b : BitVec 1) : (variantOfBit b).bit = b := by revert b; decide

/-! ## The fields of an `OPW` -/

section
variable (a16 : BitVec 16) (a8 : BitVec 8) (r : BitVec 3) (v : BitVec 1) (op : BitVec 4)

/-- An `OPW` made of its five fields, as a number. -/
theorem opw_toNat : (a16 ++ a8 ++ r ++ v ++ op : Word).toNat =
    a16.toNat * 2 ^ 16 + a8.toNat * 2 ^ 8 + r.toNat * 2 ^ 5 + v.toNat * 2 ^ 4 + op.toNat := by
  have := a16.isLt; have := a8.isLt; have := r.isLt; have := v.isLt; have := op.isLt
  simp only [BitVec.toNat_append]
  rw [← Nat.shiftLeft_add_eq_or_of_lt (by omega), ← Nat.shiftLeft_add_eq_or_of_lt (by omega),
    ← Nat.shiftLeft_add_eq_or_of_lt (by omega), ← Nat.shiftLeft_add_eq_or_of_lt (by omega)]
  simp only [Nat.shiftLeft_eq]; ring

@[simp] theorem opField_append : opField (a16 ++ a8 ++ r ++ v ++ op : Word) = op := by
  apply BitVec.eq_of_toNat_eq
  have := a16.isLt; have := a8.isLt; have := r.isLt; have := v.isLt; have := op.isLt
  simp only [opField, BitVec.extractLsb'_toNat, opw_toNat, Nat.shiftRight_eq_div_pow]; omega

@[simp] theorem varField_append : varField (a16 ++ a8 ++ r ++ v ++ op : Word) = v := by
  apply BitVec.eq_of_toNat_eq
  have := a16.isLt; have := a8.isLt; have := r.isLt; have := v.isLt; have := op.isLt
  simp only [varField, BitVec.extractLsb'_toNat, opw_toNat, Nat.shiftRight_eq_div_pow]; omega

@[simp] theorem rsvField_append : rsvField (a16 ++ a8 ++ r ++ v ++ op : Word) = r := by
  apply BitVec.eq_of_toNat_eq
  have := a16.isLt; have := a8.isLt; have := r.isLt; have := v.isLt; have := op.isLt
  simp only [rsvField, BitVec.extractLsb'_toNat, opw_toNat, Nat.shiftRight_eq_div_pow]; omega

@[simp] theorem a8Field_append : a8Field (a16 ++ a8 ++ r ++ v ++ op : Word) = a8 := by
  apply BitVec.eq_of_toNat_eq
  have := a16.isLt; have := a8.isLt; have := r.isLt; have := v.isLt; have := op.isLt
  simp only [a8Field, BitVec.extractLsb'_toNat, opw_toNat, Nat.shiftRight_eq_div_pow]; omega

@[simp] theorem a16Field_append : a16Field (a16 ++ a8 ++ r ++ v ++ op : Word) = a16 := by
  apply BitVec.eq_of_toNat_eq
  have := a16.isLt; have := a8.isLt; have := r.isLt; have := v.isLt; have := op.isLt
  simp only [a16Field, BitVec.extractLsb'_toNat, opw_toNat, Nat.shiftRight_eq_div_pow]; omega

end

/-- An `OPW` is made of its five fields. -/
theorem opw_eta (opw : Word) :
    a16Field opw ++ a8Field opw ++ rsvField opw ++ varField opw ++ opField opw = opw := by
  apply BitVec.eq_of_toNat_eq
  rw [opw_toNat]
  have := opw.isLt
  simp only [opField, varField, rsvField, a8Field, a16Field, BitVec.extractLsb'_toNat, Nat.shiftRight_eq_div_pow]
  omega

section
variable (hi : BitVec 28) (op : BitVec 4)

/-- An `OPW` with a reserved `OP`, as a number. -/
theorem reservedOpw_toNat : (hi ++ op : Word).toNat = hi.toNat * 16 + op.toNat := by
  have := hi.isLt; have := op.isLt
  simp only [BitVec.toNat_append]
  rw [← Nat.shiftLeft_add_eq_or_of_lt (by omega), Nat.shiftLeft_eq]

@[simp] theorem opField_reserved : opField (hi ++ op : Word) = op := by
  have := hi.isLt; have := op.isLt
  apply BitVec.eq_of_toNat_eq
  simp only [opField, BitVec.extractLsb'_toNat, reservedOpw_toNat, Nat.shiftRight_eq_div_pow]; omega

@[simp] theorem hiField_reserved : hiField (hi ++ op : Word) = hi := by
  have := hi.isLt; have := op.isLt
  apply BitVec.eq_of_toNat_eq
  simp only [hiField, BitVec.extractLsb'_toNat, reservedOpw_toNat, Nat.shiftRight_eq_div_pow]; omega

end

/-- An `OPW` is its upper 28 bits and its `OP`. -/
theorem reservedOpw_eta (opw : Word) : hiField opw ++ opField opw = opw := by
  have := opw.isLt
  apply BitVec.eq_of_toNat_eq
  rw [reservedOpw_toNat]
  simp only [opField, hiField, BitVec.extractLsb'_toNat, Nat.shiftRight_eq_div_pow]; omega

/-! The fields of an `OPW` as numbers. -/

theorem opField_toNat (opw : Word) : (opField opw).toNat = opw.toNat % 16 := by
  simp [opField, BitVec.extractLsb'_toNat]

theorem varField_toNat (opw : Word) : (varField opw).toNat = opw.toNat / 2 ^ 4 % 2 := by
  simp [varField, BitVec.extractLsb'_toNat, Nat.shiftRight_eq_div_pow]

theorem rsvField_toNat (opw : Word) : (rsvField opw).toNat = opw.toNat / 2 ^ 5 % 2 ^ 3 := by
  simp [rsvField, BitVec.extractLsb'_toNat, Nat.shiftRight_eq_div_pow]

theorem a8Field_toNat (opw : Word) : (a8Field opw).toNat = opw.toNat / 2 ^ 8 % 2 ^ 8 := by
  simp [a8Field, BitVec.extractLsb'_toNat, Nat.shiftRight_eq_div_pow]

theorem a16Field_toNat (opw : Word) : (a16Field opw).toNat = opw.toNat / 2 ^ 16 := by
  have := opw.isLt
  simp only [a16Field, BitVec.extractLsb'_toNat, Nat.shiftRight_eq_div_pow]; omega

/-! ## The fields of an `ARG` -/

theorem arg15Field_toNat (arg : Word) : (arg15Field arg).toNat = arg.toNat / 2 ^ 15 % 2 := by
  simp [arg15Field, BitVec.extractLsb'_toNat, Nat.shiftRight_eq_div_pow]

theorem argHiField_toNat (arg : Word) : (argHiField arg).toNat = arg.toNat / 2 := by
  have := arg.isLt
  simp only [argHiField, BitVec.extractLsb'_toNat, Nat.shiftRight_eq_div_pow]; omega

section
variable (n : BitVec 16) (z : BitVec 1) (a : BitVec 7) (b : BitVec 8)

/-- INIT's `ARG` made of its four fields, as a number. -/
theorem arg_toNat : (n ++ z ++ a ++ b : Word).toNat =
    n.toNat * 2 ^ 16 + z.toNat * 2 ^ 15 + a.toNat * 2 ^ 8 + b.toNat := by
  have := n.isLt; have := z.isLt; have := a.isLt; have := b.isLt
  simp only [BitVec.toNat_append]
  rw [← Nat.shiftLeft_add_eq_or_of_lt (by omega), ← Nat.shiftLeft_add_eq_or_of_lt (by omega),
    ← Nat.shiftLeft_add_eq_or_of_lt (by omega)]
  simp only [Nat.shiftLeft_eq]; ring

@[simp] theorem busField_append : busField (n ++ z ++ a ++ b : Word) = b := by
  have := n.isLt; have := z.isLt; have := a.isLt; have := b.isLt
  apply BitVec.eq_of_toNat_eq
  simp only [busField, BitVec.extractLsb'_toNat, arg_toNat, Nat.shiftRight_eq_div_pow]; omega

@[simp] theorem addrField_append : addrField (n ++ z ++ a ++ b : Word) = a := by
  have := n.isLt; have := z.isLt; have := a.isLt; have := b.isLt
  apply BitVec.eq_of_toNat_eq
  simp only [addrField, BitVec.extractLsb'_toNat, arg_toNat, Nat.shiftRight_eq_div_pow]; omega

@[simp] theorem arg15Field_append : arg15Field (n ++ z ++ a ++ b : Word) = z := by
  have := n.isLt; have := z.isLt; have := a.isLt; have := b.isLt
  apply BitVec.eq_of_toNat_eq
  simp only [arg15Field, BitVec.extractLsb'_toNat, arg_toNat, Nat.shiftRight_eq_div_pow]; omega

@[simp] theorem nextraField_append : nextraField (n ++ z ++ a ++ b : Word) = n := by
  have := n.isLt; have := z.isLt; have := a.isLt; have := b.isLt
  apply BitVec.eq_of_toNat_eq
  simp only [nextraField, BitVec.extractLsb'_toNat, arg_toNat, Nat.shiftRight_eq_div_pow]; omega

end

/-- INIT's `ARG` is made of its four fields. -/
theorem arg_eta (arg : Word) : nextraField arg ++ arg15Field arg ++ addrField arg ++ busField arg = arg := by
  apply BitVec.eq_of_toNat_eq
  rw [arg_toNat]
  have := arg.isLt
  simp only [busField, addrField, arg15Field, nextraField, BitVec.extractLsb'_toNat, Nat.shiftRight_eq_div_pow]; omega

@[simp] theorem mode1Field_append (m : BitVec 1) : mode1Field (0#31 ++ m : Word) = m := by revert m; decide

@[simp] theorem argHiField_append (m : BitVec 1) : argHiField (0#31 ++ m : Word) = 0#31 := by revert m; decide

/-- RENDER's `ARG` is its bit 0, the others being zero. -/
theorem renderArg_eta {arg : Word} (h : argHiField arg = 0#31) : 0#31 ++ mode1Field arg = arg := by
  have h' := congrArg BitVec.toNat h
  have := arg.isLt
  simp only [argHiField, BitVec.extractLsb'_toNat, Nat.shiftRight_eq_div_pow, BitVec.toNat_ofNat] at h'
  apply BitVec.eq_of_toNat_eq
  simp only [BitVec.toNat_append, mode1Field, BitVec.extractLsb'_toNat, Nat.shiftRight_eq_div_pow]
  simp
  omega

/-! ## The register words -/

/-- The word of `STATUS`, as a number. -/
theorem statusWord_toNat (c r : BitVec 4) (h : BitVec 1) (l : BitVec 2) :
    (0#20 ++ c ++ r ++ h ++ 0#1 ++ l : Word).toNat =
      l.toNat + 2 ^ 3 * h.toNat + 2 ^ 4 * r.toNat + 2 ^ 8 * c.toNat := by
  have := c.isLt; have := r.isLt; have := h.isLt; have := l.isLt
  simp only [BitVec.toNat_append, BitVec.toNat_ofNat, Nat.zero_mod, Nat.zero_shiftLeft, Nat.zero_or]
  rw [← Nat.shiftLeft_add_eq_or_of_lt (by omega), ← Nat.shiftLeft_add_eq_or_of_lt (by omega),
    ← Nat.shiftLeft_add_eq_or_of_lt (by omega), ← Nat.shiftLeft_add_eq_or_of_lt (by omega)]
  simp only [Nat.shiftLeft_eq]; omega

/-- The word of `CFG`, as a number. -/
theorem cfgWord_toNat (d : BitVec 7) (b : BitVec 8) (v : BitVec 1) :
    (0#9 ++ d ++ b ++ 0#7 ++ v : Word).toNat = v.toNat + 2 ^ 8 * b.toNat + 2 ^ 16 * d.toNat := by
  have := d.isLt; have := b.isLt; have := v.isLt
  simp only [BitVec.toNat_append, BitVec.toNat_ofNat, Nat.zero_mod, Nat.zero_shiftLeft, Nat.zero_or]
  rw [← Nat.shiftLeft_add_eq_or_of_lt (by omega), ← Nat.shiftLeft_add_eq_or_of_lt (by omega),
    ← Nat.shiftLeft_add_eq_or_of_lt (by omega)]
  simp only [Nat.shiftLeft_eq]; omega

/-- The word of `GEOM`, as a number. -/
theorem geomWord_toNat (h w : BitVec 16) : (h ++ w : Word).toNat = w.toNat + 2 ^ 16 * h.toNat := by
  have := w.isLt; have := h.isLt
  simp only [BitVec.toNat_append]
  rw [← Nat.shiftLeft_add_eq_or_of_lt (by omega)]
  simp only [Nat.shiftLeft_eq]; omega

end Sys2Proof
end

