-- ==== Sys2Proof/Laws/State.lean ====
section
/-! SUPPORT. One lemma for each field of the state under each update that the shared operations make. -/

namespace Sys2Proof.Machine

@[simp] theorem beginRequest_opw (s : State) : (beginRequest s).opw = s.opw := rfl
@[simp] theorem beginRequest_arg (s : State) : (beginRequest s).arg = s.arg := rfl
@[simp] theorem beginRequest_life (s : State) : (beginRequest s).life = s.life := rfl
@[simp] theorem beginRequest_handleOpen (s : State) : (beginRequest s).handleOpen = s.handleOpen := rfl
@[simp] theorem beginRequest_result (s : State) : (beginRequest s).result = s.result := rfl
@[simp] theorem beginRequest_cause (s : State) : (beginRequest s).cause = s.cause := rfl
@[simp] theorem beginRequest_variant (s : State) : (beginRequest s).variant = s.variant := rfl
@[simp] theorem beginRequest_busIndex (s : State) : (beginRequest s).busIndex = s.busIndex := rfl
@[simp] theorem beginRequest_devAddr (s : State) : (beginRequest s).devAddr = s.devAddr := rfl
@[simp] theorem beginRequest_width (s : State) : (beginRequest s).width = s.width := rfl
@[simp] theorem beginRequest_height (s : State) : (beginRequest s).height = s.height := rfl
@[simp] theorem beginRequest_pages (s : State) : (beginRequest s).pages = s.pages := rfl
@[simp] theorem beginRequest_packOut (s : State) : (beginRequest s).packOut = s.packOut := rfl
@[simp] theorem beginRequest_txCount (s : State) : (beginRequest s).txCount = 0 := rfl
@[simp] theorem beginRequest_datapath (s : State) : (beginRequest s).datapath = s.datapath := rfl
@[simp] theorem beginRequest_fault (s : State) : (beginRequest s).fault = s.fault := rfl
@[simp] theorem beginRequest_fb (s : State) : (beginRequest s).fb = s.fb := rfl
@[simp] theorem beginRequest_pbuf (s : State) : (beginRequest s).pbuf = s.pbuf := rfl
@[simp] theorem beginRequest_log (s : State) : (beginRequest s).log = s.log := rfl
@[simp] theorem beginRequest_staged (s : State) : (beginRequest s).staged = Staged.empty := rfl
@[simp] theorem beginRequest_draws (s : State) : (beginRequest s).draws = s.draws := rfl
@[simp] theorem beginRequest_freeCount (s : State) : (beginRequest s).freeCount = s.freeCount := rfl
@[simp] theorem beginRequest_moves (s : State) : (beginRequest s).moves = s.moves := rfl
@[simp] theorem beginRequest_readData (s : State) : (beginRequest s).readData = s.readData := rfl

@[simp] theorem endRequest_opw (r c : BitVec 4) (s : State) : (endRequest r c s).opw = s.opw := rfl
@[simp] theorem endRequest_arg (r c : BitVec 4) (s : State) : (endRequest r c s).arg = s.arg := rfl
@[simp] theorem endRequest_life (r c : BitVec 4) (s : State) : (endRequest r c s).life = s.life := rfl
@[simp] theorem endRequest_handleOpen (r c : BitVec 4) (s : State) : (endRequest r c s).handleOpen = s.handleOpen := rfl
@[simp] theorem endRequest_result (r c : BitVec 4) (s : State) : (endRequest r c s).result = r := rfl
@[simp] theorem endRequest_cause (r c : BitVec 4) (s : State) : (endRequest r c s).cause = c := rfl
@[simp] theorem endRequest_variant (r c : BitVec 4) (s : State) : (endRequest r c s).variant = s.variant := rfl
@[simp] theorem endRequest_busIndex (r c : BitVec 4) (s : State) : (endRequest r c s).busIndex = s.busIndex := rfl
@[simp] theorem endRequest_devAddr (r c : BitVec 4) (s : State) : (endRequest r c s).devAddr = s.devAddr := rfl
@[simp] theorem endRequest_width (r c : BitVec 4) (s : State) : (endRequest r c s).width = s.width := rfl
@[simp] theorem endRequest_height (r c : BitVec 4) (s : State) : (endRequest r c s).height = s.height := rfl
@[simp] theorem endRequest_pages (r c : BitVec 4) (s : State) : (endRequest r c s).pages = s.pages := rfl
@[simp] theorem endRequest_packOut (r c : BitVec 4) (s : State) : (endRequest r c s).packOut = s.packOut := rfl
@[simp] theorem endRequest_txCount (r c : BitVec 4) (s : State) : (endRequest r c s).txCount = s.txCount := rfl
@[simp] theorem endRequest_datapath (r c : BitVec 4) (s : State) : (endRequest r c s).datapath = Config.datapathAfter s.freeCount := rfl
@[simp] theorem endRequest_fault (r c : BitVec 4) (s : State) : (endRequest r c s).fault = s.fault := rfl
@[simp] theorem endRequest_fb (r c : BitVec 4) (s : State) : (endRequest r c s).fb = s.fb := rfl
@[simp] theorem endRequest_pbuf (r c : BitVec 4) (s : State) : (endRequest r c s).pbuf = s.pbuf := rfl
@[simp] theorem endRequest_log (r c : BitVec 4) (s : State) : (endRequest r c s).log = s.log := rfl
@[simp] theorem endRequest_staged (r c : BitVec 4) (s : State) : (endRequest r c s).staged = s.staged := rfl
@[simp] theorem endRequest_draws (r c : BitVec 4) (s : State) : (endRequest r c s).draws = s.draws := rfl
@[simp] theorem endRequest_freeCount (r c : BitVec 4) (s : State) : (endRequest r c s).freeCount = s.freeCount + 1 := rfl
@[simp] theorem endRequest_moves (r c : BitVec 4) (s : State) : (endRequest r c s).moves = s.moves := rfl
@[simp] theorem endRequest_readData (r c : BitVec 4) (s : State) : (endRequest r c s).readData = s.readData := rfl

/-- `done` is the end of a request with `OK`. -/
@[simp] theorem done_eq (s : State) : done s = endRequest 0 0 s := rfl

/-- `raise` is the end of a request with the error's codes. -/
@[simp] theorem raise_eq (e : Err) (s : State) : raise e s = endRequest e.result e.cause s := rfl

@[simp] theorem setFault_opw (s : State) : (setFault s).opw = s.opw := rfl
@[simp] theorem setFault_arg (s : State) : (setFault s).arg = s.arg := rfl
@[simp] theorem setFault_life (s : State) : (setFault s).life = s.life := rfl
@[simp] theorem setFault_handleOpen (s : State) : (setFault s).handleOpen = s.handleOpen := rfl
@[simp] theorem setFault_result (s : State) : (setFault s).result = s.result := rfl
@[simp] theorem setFault_cause (s : State) : (setFault s).cause = s.cause := rfl
@[simp] theorem setFault_variant (s : State) : (setFault s).variant = s.variant := rfl
@[simp] theorem setFault_busIndex (s : State) : (setFault s).busIndex = s.busIndex := rfl
@[simp] theorem setFault_devAddr (s : State) : (setFault s).devAddr = s.devAddr := rfl
@[simp] theorem setFault_width (s : State) : (setFault s).width = s.width := rfl
@[simp] theorem setFault_height (s : State) : (setFault s).height = s.height := rfl
@[simp] theorem setFault_pages (s : State) : (setFault s).pages = s.pages := rfl
@[simp] theorem setFault_packOut (s : State) : (setFault s).packOut = s.packOut := rfl
@[simp] theorem setFault_txCount (s : State) : (setFault s).txCount = s.txCount := rfl
@[simp] theorem setFault_datapath (s : State) : (setFault s).datapath = s.datapath := rfl
@[simp] theorem setFault_fault (s : State) : (setFault s).fault = true := rfl
@[simp] theorem setFault_fb (s : State) : (setFault s).fb = s.fb := rfl
@[simp] theorem setFault_pbuf (s : State) : (setFault s).pbuf = s.pbuf := rfl
@[simp] theorem setFault_log (s : State) : (setFault s).log = s.log := rfl
@[simp] theorem setFault_staged (s : State) : (setFault s).staged = s.staged := rfl
@[simp] theorem setFault_draws (s : State) : (setFault s).draws = s.draws := rfl
@[simp] theorem setFault_freeCount (s : State) : (setFault s).freeCount = s.freeCount := rfl
@[simp] theorem setFault_moves (s : State) : (setFault s).moves = s.moves := rfl
@[simp] theorem setFault_readData (s : State) : (setFault s).readData = s.readData := rfl

@[simp] theorem beginSeq_opw (k : TxKind) (s : State) : (beginSeq k s).opw = s.opw := rfl
@[simp] theorem beginSeq_arg (k : TxKind) (s : State) : (beginSeq k s).arg = s.arg := rfl
@[simp] theorem beginSeq_life (k : TxKind) (s : State) : (beginSeq k s).life = s.life := rfl
@[simp] theorem beginSeq_handleOpen (k : TxKind) (s : State) : (beginSeq k s).handleOpen = s.handleOpen := rfl
@[simp] theorem beginSeq_result (k : TxKind) (s : State) : (beginSeq k s).result = s.result := rfl
@[simp] theorem beginSeq_cause (k : TxKind) (s : State) : (beginSeq k s).cause = s.cause := rfl
@[simp] theorem beginSeq_variant (k : TxKind) (s : State) : (beginSeq k s).variant = s.variant := rfl
@[simp] theorem beginSeq_busIndex (k : TxKind) (s : State) : (beginSeq k s).busIndex = s.busIndex := rfl
@[simp] theorem beginSeq_devAddr (k : TxKind) (s : State) : (beginSeq k s).devAddr = s.devAddr := rfl
@[simp] theorem beginSeq_width (k : TxKind) (s : State) : (beginSeq k s).width = s.width := rfl
@[simp] theorem beginSeq_height (k : TxKind) (s : State) : (beginSeq k s).height = s.height := rfl
@[simp] theorem beginSeq_pages (k : TxKind) (s : State) : (beginSeq k s).pages = s.pages := rfl
@[simp] theorem beginSeq_packOut (k : TxKind) (s : State) : (beginSeq k s).packOut = s.packOut := rfl
@[simp] theorem beginSeq_txCount (k : TxKind) (s : State) : (beginSeq k s).txCount = s.txCount := rfl
@[simp] theorem beginSeq_datapath (k : TxKind) (s : State) : (beginSeq k s).datapath = s.datapath := rfl
@[simp] theorem beginSeq_fault (k : TxKind) (s : State) : (beginSeq k s).fault = s.fault := rfl
@[simp] theorem beginSeq_fb (k : TxKind) (s : State) : (beginSeq k s).fb = s.fb := rfl
@[simp] theorem beginSeq_pbuf (k : TxKind) (s : State) : (beginSeq k s).pbuf = s.pbuf := rfl
@[simp] theorem beginSeq_log (k : TxKind) (s : State) : (beginSeq k s).log = s.log := rfl
@[simp] theorem beginSeq_staged (k : TxKind) (s : State) : (beginSeq k s).staged = ⟨k, []⟩ := rfl
@[simp] theorem beginSeq_draws (k : TxKind) (s : State) : (beginSeq k s).draws = s.draws := rfl
@[simp] theorem beginSeq_freeCount (k : TxKind) (s : State) : (beginSeq k s).freeCount = s.freeCount := rfl
@[simp] theorem beginSeq_moves (k : TxKind) (s : State) : (beginSeq k s).moves = s.moves := rfl
@[simp] theorem beginSeq_readData (k : TxKind) (s : State) : (beginSeq k s).readData = s.readData := rfl

@[simp] theorem stage_opw (bs : List Byte) (s : State) : (stage bs s).opw = s.opw := rfl
@[simp] theorem stage_arg (bs : List Byte) (s : State) : (stage bs s).arg = s.arg := rfl
@[simp] theorem stage_life (bs : List Byte) (s : State) : (stage bs s).life = s.life := rfl
@[simp] theorem stage_handleOpen (bs : List Byte) (s : State) : (stage bs s).handleOpen = s.handleOpen := rfl
@[simp] theorem stage_result (bs : List Byte) (s : State) : (stage bs s).result = s.result := rfl
@[simp] theorem stage_cause (bs : List Byte) (s : State) : (stage bs s).cause = s.cause := rfl
@[simp] theorem stage_variant (bs : List Byte) (s : State) : (stage bs s).variant = s.variant := rfl
@[simp] theorem stage_busIndex (bs : List Byte) (s : State) : (stage bs s).busIndex = s.busIndex := rfl
@[simp] theorem stage_devAddr (bs : List Byte) (s : State) : (stage bs s).devAddr = s.devAddr := rfl
@[simp] theorem stage_width (bs : List Byte) (s : State) : (stage bs s).width = s.width := rfl
@[simp] theorem stage_height (bs : List Byte) (s : State) : (stage bs s).height = s.height := rfl
@[simp] theorem stage_pages (bs : List Byte) (s : State) : (stage bs s).pages = s.pages := rfl
@[simp] theorem stage_packOut (bs : List Byte) (s : State) : (stage bs s).packOut = s.packOut := rfl
@[simp] theorem stage_txCount (bs : List Byte) (s : State) : (stage bs s).txCount = s.txCount := rfl
@[simp] theorem stage_datapath (bs : List Byte) (s : State) : (stage bs s).datapath = s.datapath := rfl
@[simp] theorem stage_fault (bs : List Byte) (s : State) : (stage bs s).fault = s.fault := rfl
@[simp] theorem stage_fb (bs : List Byte) (s : State) : (stage bs s).fb = s.fb := rfl
@[simp] theorem stage_pbuf (bs : List Byte) (s : State) : (stage bs s).pbuf = s.pbuf := rfl
@[simp] theorem stage_log (bs : List Byte) (s : State) : (stage bs s).log = s.log := rfl
@[simp] theorem stage_staged (bs : List Byte) (s : State) : (stage bs s).staged = ⟨s.staged.kind, s.staged.bytes ++ bs⟩ := rfl
@[simp] theorem stage_draws (bs : List Byte) (s : State) : (stage bs s).draws = s.draws := rfl
@[simp] theorem stage_freeCount (bs : List Byte) (s : State) : (stage bs s).freeCount = s.freeCount := rfl
@[simp] theorem stage_moves (bs : List Byte) (s : State) : (stage bs s).moves = s.moves := rfl
@[simp] theorem stage_readData (bs : List Byte) (s : State) : (stage bs s).readData = s.readData := rfl

@[simp] theorem loadConfig_opw (v : Variant) (w : BitVec 9) (h : BitVec 16) (b : BitVec 8) (a : BitVec 7) (s : State)
    : (loadConfig v w h b a s).opw = s.opw := rfl
@[simp] theorem loadConfig_arg (v : Variant) (w : BitVec 9) (h : BitVec 16) (b : BitVec 8) (a : BitVec 7) (s : State)
    : (loadConfig v w h b a s).arg = s.arg := rfl
@[simp] theorem loadConfig_life (v : Variant) (w : BitVec 9) (h : BitVec 16) (b : BitVec 8) (a : BitVec 7) (s : State)
    : (loadConfig v w h b a s).life = .initializing := rfl
@[simp] theorem loadConfig_handleOpen (v : Variant) (w : BitVec 9) (h : BitVec 16) (b : BitVec 8) (a : BitVec 7) (s : State)
    : (loadConfig v w h b a s).handleOpen = s.handleOpen := rfl
@[simp] theorem loadConfig_result (v : Variant) (w : BitVec 9) (h : BitVec 16) (b : BitVec 8) (a : BitVec 7) (s : State)
    : (loadConfig v w h b a s).result = s.result := rfl
@[simp] theorem loadConfig_cause (v : Variant) (w : BitVec 9) (h : BitVec 16) (b : BitVec 8) (a : BitVec 7) (s : State)
    : (loadConfig v w h b a s).cause = s.cause := rfl
@[simp] theorem loadConfig_variant (v : Variant) (w : BitVec 9) (h : BitVec 16) (b : BitVec 8) (a : BitVec 7) (s : State)
    : (loadConfig v w h b a s).variant = v := rfl
@[simp] theorem loadConfig_busIndex (v : Variant) (w : BitVec 9) (h : BitVec 16) (b : BitVec 8) (a : BitVec 7) (s : State)
    : (loadConfig v w h b a s).busIndex = b := rfl
@[simp] theorem loadConfig_devAddr (v : Variant) (w : BitVec 9) (h : BitVec 16) (b : BitVec 8) (a : BitVec 7) (s : State)
    : (loadConfig v w h b a s).devAddr = a := rfl
@[simp] theorem loadConfig_width (v : Variant) (w : BitVec 9) (h : BitVec 16) (b : BitVec 8) (a : BitVec 7) (s : State)
    : (loadConfig v w h b a s).width = w.setWidth 16 := rfl
@[simp] theorem loadConfig_height (v : Variant) (w : BitVec 9) (h : BitVec 16) (b : BitVec 8) (a : BitVec 7) (s : State)
    : (loadConfig v w h b a s).height = h := rfl
@[simp] theorem loadConfig_pages (v : Variant) (w : BitVec 9) (h : BitVec 16) (b : BitVec 8) (a : BitVec 7) (s : State)
    : (loadConfig v w h b a s).pages = BitVec.ofNat 16 (pageCount h) := rfl
@[simp] theorem loadConfig_packOut (v : Variant) (w : BitVec 9) (h : BitVec 16) (b : BitVec 8) (a : BitVec 7) (s : State)
    : (loadConfig v w h b a s).packOut = s.packOut := rfl
@[simp] theorem loadConfig_txCount (v : Variant) (w : BitVec 9) (h : BitVec 16) (b : BitVec 8) (a : BitVec 7) (s : State)
    : (loadConfig v w h b a s).txCount = s.txCount := rfl
@[simp] theorem loadConfig_datapath (v : Variant) (w : BitVec 9) (h : BitVec 16) (b : BitVec 8) (a : BitVec 7) (s : State)
    : (loadConfig v w h b a s).datapath = s.datapath := rfl
@[simp] theorem loadConfig_fault (v : Variant) (w : BitVec 9) (h : BitVec 16) (b : BitVec 8) (a : BitVec 7) (s : State)
    : (loadConfig v w h b a s).fault = s.fault := rfl
@[simp] theorem loadConfig_fb (v : Variant) (w : BitVec 9) (h : BitVec 16) (b : BitVec 8) (a : BitVec 7) (s : State)
    : (loadConfig v w h b a s).fb = s.fb := rfl
@[simp] theorem loadConfig_pbuf (v : Variant) (w : BitVec 9) (h : BitVec 16) (b : BitVec 8) (a : BitVec 7) (s : State)
    : (loadConfig v w h b a s).pbuf = s.pbuf := rfl
@[simp] theorem loadConfig_log (v : Variant) (w : BitVec 9) (h : BitVec 16) (b : BitVec 8) (a : BitVec 7) (s : State)
    : (loadConfig v w h b a s).log = s.log := rfl
@[simp] theorem loadConfig_staged (v : Variant) (w : BitVec 9) (h : BitVec 16) (b : BitVec 8) (a : BitVec 7) (s : State)
    : (loadConfig v w h b a s).staged = s.staged := rfl
@[simp] theorem loadConfig_draws (v : Variant) (w : BitVec 9) (h : BitVec 16) (b : BitVec 8) (a : BitVec 7) (s : State)
    : (loadConfig v w h b a s).draws = s.draws := rfl
@[simp] theorem loadConfig_freeCount (v : Variant) (w : BitVec 9) (h : BitVec 16) (b : BitVec 8) (a : BitVec 7) (s : State)
    : (loadConfig v w h b a s).freeCount = s.freeCount := rfl
@[simp] theorem loadConfig_moves (v : Variant) (w : BitVec 9) (h : BitVec 16) (b : BitVec 8) (a : BitVec 7) (s : State)
    : (loadConfig v w h b a s).moves = s.moves := rfl
@[simp] theorem loadConfig_readData (v : Variant) (w : BitVec 9) (h : BitVec 16) (b : BitVec 8) (a : BitVec 7) (s : State)
    : (loadConfig v w h b a s).readData = s.readData := rfl

@[simp] theorem resetBlock_opw (s : State) : (resetBlock s).opw = State.reset.opw := rfl
@[simp] theorem resetBlock_arg (s : State) : (resetBlock s).arg = State.reset.arg := rfl
@[simp] theorem resetBlock_life (s : State) : (resetBlock s).life = State.reset.life := rfl
@[simp] theorem resetBlock_handleOpen (s : State) : (resetBlock s).handleOpen = State.reset.handleOpen := rfl
@[simp] theorem resetBlock_result (s : State) : (resetBlock s).result = State.reset.result := rfl
@[simp] theorem resetBlock_cause (s : State) : (resetBlock s).cause = State.reset.cause := rfl
@[simp] theorem resetBlock_variant (s : State) : (resetBlock s).variant = State.reset.variant := rfl
@[simp] theorem resetBlock_busIndex (s : State) : (resetBlock s).busIndex = State.reset.busIndex := rfl
@[simp] theorem resetBlock_devAddr (s : State) : (resetBlock s).devAddr = State.reset.devAddr := rfl
@[simp] theorem resetBlock_width (s : State) : (resetBlock s).width = State.reset.width := rfl
@[simp] theorem resetBlock_height (s : State) : (resetBlock s).height = State.reset.height := rfl
@[simp] theorem resetBlock_pages (s : State) : (resetBlock s).pages = State.reset.pages := rfl
@[simp] theorem resetBlock_packOut (s : State) : (resetBlock s).packOut = State.reset.packOut := rfl
@[simp] theorem resetBlock_txCount (s : State) : (resetBlock s).txCount = State.reset.txCount := rfl
@[simp] theorem resetBlock_datapath (s : State) : (resetBlock s).datapath = State.reset.datapath := rfl
@[simp] theorem resetBlock_fault (s : State) : (resetBlock s).fault = State.reset.fault := rfl
@[simp] theorem resetBlock_fb (s : State) : (resetBlock s).fb = State.reset.fb := rfl
@[simp] theorem resetBlock_pbuf (s : State) : (resetBlock s).pbuf = State.reset.pbuf := rfl
@[simp] theorem resetBlock_log (s : State) : (resetBlock s).log = State.reset.log := rfl
@[simp] theorem resetBlock_staged (s : State) : (resetBlock s).staged = State.reset.staged := rfl
@[simp] theorem resetBlock_draws (s : State) : (resetBlock s).draws = s.draws := rfl
@[simp] theorem resetBlock_freeCount (s : State) : (resetBlock s).freeCount = s.freeCount := rfl
@[simp] theorem resetBlock_moves (s : State) : (resetBlock s).moves = s.moves := rfl
@[simp] theorem resetBlock_readData (s : State) : (resetBlock s).readData = s.readData := rfl

@[simp] theorem setLife_opw (l : LifeState) (s : State) : (setLife l s).opw = s.opw := rfl
@[simp] theorem setLife_arg (l : LifeState) (s : State) : (setLife l s).arg = s.arg := rfl
@[simp] theorem setLife_life (l : LifeState) (s : State) : (setLife l s).life = l := rfl
@[simp] theorem setLife_handleOpen (l : LifeState) (s : State) : (setLife l s).handleOpen = s.handleOpen := rfl
@[simp] theorem setLife_result (l : LifeState) (s : State) : (setLife l s).result = s.result := rfl
@[simp] theorem setLife_cause (l : LifeState) (s : State) : (setLife l s).cause = s.cause := rfl
@[simp] theorem setLife_variant (l : LifeState) (s : State) : (setLife l s).variant = s.variant := rfl
@[simp] theorem setLife_busIndex (l : LifeState) (s : State) : (setLife l s).busIndex = s.busIndex := rfl
@[simp] theorem setLife_devAddr (l : LifeState) (s : State) : (setLife l s).devAddr = s.devAddr := rfl
@[simp] theorem setLife_width (l : LifeState) (s : State) : (setLife l s).width = s.width := rfl
@[simp] theorem setLife_height (l : LifeState) (s : State) : (setLife l s).height = s.height := rfl
@[simp] theorem setLife_pages (l : LifeState) (s : State) : (setLife l s).pages = s.pages := rfl
@[simp] theorem setLife_packOut (l : LifeState) (s : State) : (setLife l s).packOut = s.packOut := rfl
@[simp] theorem setLife_txCount (l : LifeState) (s : State) : (setLife l s).txCount = s.txCount := rfl
@[simp] theorem setLife_datapath (l : LifeState) (s : State) : (setLife l s).datapath = s.datapath := rfl
@[simp] theorem setLife_fault (l : LifeState) (s : State) : (setLife l s).fault = s.fault := rfl
@[simp] theorem setLife_fb (l : LifeState) (s : State) : (setLife l s).fb = s.fb := rfl
@[simp] theorem setLife_pbuf (l : LifeState) (s : State) : (setLife l s).pbuf = s.pbuf := rfl
@[simp] theorem setLife_log (l : LifeState) (s : State) : (setLife l s).log = s.log := rfl
@[simp] theorem setLife_staged (l : LifeState) (s : State) : (setLife l s).staged = s.staged := rfl
@[simp] theorem setLife_draws (l : LifeState) (s : State) : (setLife l s).draws = s.draws := rfl
@[simp] theorem setLife_freeCount (l : LifeState) (s : State) : (setLife l s).freeCount = s.freeCount := rfl
@[simp] theorem setLife_moves (l : LifeState) (s : State) : (setLife l s).moves = s.moves := rfl
@[simp] theorem setLife_readData (l : LifeState) (s : State) : (setLife l s).readData = s.readData := rfl

@[simp] theorem setHandleOpen_opw (b : Bool) (s : State) : (setHandleOpen b s).opw = s.opw := rfl
@[simp] theorem setHandleOpen_arg (b : Bool) (s : State) : (setHandleOpen b s).arg = s.arg := rfl
@[simp] theorem setHandleOpen_life (b : Bool) (s : State) : (setHandleOpen b s).life = s.life := rfl
@[simp] theorem setHandleOpen_handleOpen (b : Bool) (s : State) : (setHandleOpen b s).handleOpen = b := rfl
@[simp] theorem setHandleOpen_result (b : Bool) (s : State) : (setHandleOpen b s).result = s.result := rfl
@[simp] theorem setHandleOpen_cause (b : Bool) (s : State) : (setHandleOpen b s).cause = s.cause := rfl
@[simp] theorem setHandleOpen_variant (b : Bool) (s : State) : (setHandleOpen b s).variant = s.variant := rfl
@[simp] theorem setHandleOpen_busIndex (b : Bool) (s : State) : (setHandleOpen b s).busIndex = s.busIndex := rfl
@[simp] theorem setHandleOpen_devAddr (b : Bool) (s : State) : (setHandleOpen b s).devAddr = s.devAddr := rfl
@[simp] theorem setHandleOpen_width (b : Bool) (s : State) : (setHandleOpen b s).width = s.width := rfl
@[simp] theorem setHandleOpen_height (b : Bool) (s : State) : (setHandleOpen b s).height = s.height := rfl
@[simp] theorem setHandleOpen_pages (b : Bool) (s : State) : (setHandleOpen b s).pages = s.pages := rfl
@[simp] theorem setHandleOpen_packOut (b : Bool) (s : State) : (setHandleOpen b s).packOut = s.packOut := rfl
@[simp] theorem setHandleOpen_txCount (b : Bool) (s : State) : (setHandleOpen b s).txCount = s.txCount := rfl
@[simp] theorem setHandleOpen_datapath (b : Bool) (s : State) : (setHandleOpen b s).datapath = s.datapath := rfl
@[simp] theorem setHandleOpen_fault (b : Bool) (s : State) : (setHandleOpen b s).fault = s.fault := rfl
@[simp] theorem setHandleOpen_fb (b : Bool) (s : State) : (setHandleOpen b s).fb = s.fb := rfl
@[simp] theorem setHandleOpen_pbuf (b : Bool) (s : State) : (setHandleOpen b s).pbuf = s.pbuf := rfl
@[simp] theorem setHandleOpen_log (b : Bool) (s : State) : (setHandleOpen b s).log = s.log := rfl
@[simp] theorem setHandleOpen_staged (b : Bool) (s : State) : (setHandleOpen b s).staged = s.staged := rfl
@[simp] theorem setHandleOpen_draws (b : Bool) (s : State) : (setHandleOpen b s).draws = s.draws := rfl
@[simp] theorem setHandleOpen_freeCount (b : Bool) (s : State) : (setHandleOpen b s).freeCount = s.freeCount := rfl
@[simp] theorem setHandleOpen_moves (b : Bool) (s : State) : (setHandleOpen b s).moves = s.moves := rfl
@[simp] theorem setHandleOpen_readData (b : Bool) (s : State) : (setHandleOpen b s).readData = s.readData := rfl

@[simp] theorem setPackOut_opw (b : Byte) (s : State) : (setPackOut b s).opw = s.opw := rfl
@[simp] theorem setPackOut_arg (b : Byte) (s : State) : (setPackOut b s).arg = s.arg := rfl
@[simp] theorem setPackOut_life (b : Byte) (s : State) : (setPackOut b s).life = s.life := rfl
@[simp] theorem setPackOut_handleOpen (b : Byte) (s : State) : (setPackOut b s).handleOpen = s.handleOpen := rfl
@[simp] theorem setPackOut_result (b : Byte) (s : State) : (setPackOut b s).result = s.result := rfl
@[simp] theorem setPackOut_cause (b : Byte) (s : State) : (setPackOut b s).cause = s.cause := rfl
@[simp] theorem setPackOut_variant (b : Byte) (s : State) : (setPackOut b s).variant = s.variant := rfl
@[simp] theorem setPackOut_busIndex (b : Byte) (s : State) : (setPackOut b s).busIndex = s.busIndex := rfl
@[simp] theorem setPackOut_devAddr (b : Byte) (s : State) : (setPackOut b s).devAddr = s.devAddr := rfl
@[simp] theorem setPackOut_width (b : Byte) (s : State) : (setPackOut b s).width = s.width := rfl
@[simp] theorem setPackOut_height (b : Byte) (s : State) : (setPackOut b s).height = s.height := rfl
@[simp] theorem setPackOut_pages (b : Byte) (s : State) : (setPackOut b s).pages = s.pages := rfl
@[simp] theorem setPackOut_packOut (b : Byte) (s : State) : (setPackOut b s).packOut = b := rfl
@[simp] theorem setPackOut_txCount (b : Byte) (s : State) : (setPackOut b s).txCount = s.txCount := rfl
@[simp] theorem setPackOut_datapath (b : Byte) (s : State) : (setPackOut b s).datapath = s.datapath := rfl
@[simp] theorem setPackOut_fault (b : Byte) (s : State) : (setPackOut b s).fault = s.fault := rfl
@[simp] theorem setPackOut_fb (b : Byte) (s : State) : (setPackOut b s).fb = s.fb := rfl
@[simp] theorem setPackOut_pbuf (b : Byte) (s : State) : (setPackOut b s).pbuf = s.pbuf := rfl
@[simp] theorem setPackOut_log (b : Byte) (s : State) : (setPackOut b s).log = s.log := rfl
@[simp] theorem setPackOut_staged (b : Byte) (s : State) : (setPackOut b s).staged = s.staged := rfl
@[simp] theorem setPackOut_draws (b : Byte) (s : State) : (setPackOut b s).draws = s.draws := rfl
@[simp] theorem setPackOut_freeCount (b : Byte) (s : State) : (setPackOut b s).freeCount = s.freeCount := rfl
@[simp] theorem setPackOut_moves (b : Byte) (s : State) : (setPackOut b s).moves = s.moves := rfl
@[simp] theorem setPackOut_readData (b : Byte) (s : State) : (setPackOut b s).readData = s.readData := rfl

end Sys2Proof.Machine
end

