-- ==== Sys2Proof/Laws/Bus.lean ====
section
/-! SUPPORT. What the bus primitives and the write primitive do, said once: every write call is a list of transactions sent
one by one, up to and including the first that fails. -/

namespace Sys2Proof.Machine

/-- A state after the bus calls of these events: the answers taken, the writes counted. -/
def afterEvents (n : Nat) (es : List BusEvent) (d : List Answer) (f : Nat) (s : State) : State :=
  { s with txCount := s.txCount + BitVec.ofNat 32 n, log := s.log ++ es, draws := d, freeCount := f }

/-- Transactions sent one by one, each counted, up to the first failing one. -/
def sendTxs : List (List Byte) → State → Answer × State
  | [], s => (.ok, s)
  | t :: ts, s =>
    match busWrite t (countTx s) with
    | (.fail, u) => (.fail, u)
    | (.ok, u) => sendTxs ts u

/-- The events of transactions sent one by one, with the answer to the last. -/
inductive Delivered : List (List Byte) → Answer → List BusEvent → Prop
  | nil : Delivered [] .ok []
  | fail (t : List Byte) (ts : List (List Byte)) : Delivered (t :: ts) .fail [.write t .fail]
  | ok {t : List Byte} {ts : List (List Byte)} {r : Answer} {es : List BusEvent} (h : Delivered ts r es) :
      Delivered (t :: ts) r (.write t .ok :: es)

/-! ## One bus call -/

@[simp] theorem afterEvents_opw (n : Nat) (es : List BusEvent) (d : List Answer) (f : Nat) (s : State)
    : (afterEvents n es d f s).opw = s.opw := rfl
@[simp] theorem afterEvents_arg (n : Nat) (es : List BusEvent) (d : List Answer) (f : Nat) (s : State)
    : (afterEvents n es d f s).arg = s.arg := rfl
@[simp] theorem afterEvents_life (n : Nat) (es : List BusEvent) (d : List Answer) (f : Nat) (s : State)
    : (afterEvents n es d f s).life = s.life := rfl
@[simp] theorem afterEvents_handleOpen (n : Nat) (es : List BusEvent) (d : List Answer) (f : Nat) (s : State)
    : (afterEvents n es d f s).handleOpen = s.handleOpen := rfl
@[simp] theorem afterEvents_result (n : Nat) (es : List BusEvent) (d : List Answer) (f : Nat) (s : State)
    : (afterEvents n es d f s).result = s.result := rfl
@[simp] theorem afterEvents_cause (n : Nat) (es : List BusEvent) (d : List Answer) (f : Nat) (s : State)
    : (afterEvents n es d f s).cause = s.cause := rfl
@[simp] theorem afterEvents_variant (n : Nat) (es : List BusEvent) (d : List Answer) (f : Nat) (s : State)
    : (afterEvents n es d f s).variant = s.variant := rfl
@[simp] theorem afterEvents_busIndex (n : Nat) (es : List BusEvent) (d : List Answer) (f : Nat) (s : State)
    : (afterEvents n es d f s).busIndex = s.busIndex := rfl
@[simp] theorem afterEvents_devAddr (n : Nat) (es : List BusEvent) (d : List Answer) (f : Nat) (s : State)
    : (afterEvents n es d f s).devAddr = s.devAddr := rfl
@[simp] theorem afterEvents_width (n : Nat) (es : List BusEvent) (d : List Answer) (f : Nat) (s : State)
    : (afterEvents n es d f s).width = s.width := rfl
@[simp] theorem afterEvents_height (n : Nat) (es : List BusEvent) (d : List Answer) (f : Nat) (s : State)
    : (afterEvents n es d f s).height = s.height := rfl
@[simp] theorem afterEvents_pages (n : Nat) (es : List BusEvent) (d : List Answer) (f : Nat) (s : State)
    : (afterEvents n es d f s).pages = s.pages := rfl
@[simp] theorem afterEvents_packOut (n : Nat) (es : List BusEvent) (d : List Answer) (f : Nat) (s : State)
    : (afterEvents n es d f s).packOut = s.packOut := rfl
@[simp] theorem afterEvents_txCount (n : Nat) (es : List BusEvent) (d : List Answer) (f : Nat) (s : State)
    : (afterEvents n es d f s).txCount = s.txCount + BitVec.ofNat 32 n := rfl
@[simp] theorem afterEvents_datapath (n : Nat) (es : List BusEvent) (d : List Answer) (f : Nat) (s : State)
    : (afterEvents n es d f s).datapath = s.datapath := rfl
@[simp] theorem afterEvents_fault (n : Nat) (es : List BusEvent) (d : List Answer) (f : Nat) (s : State)
    : (afterEvents n es d f s).fault = s.fault := rfl
@[simp] theorem afterEvents_fb (n : Nat) (es : List BusEvent) (d : List Answer) (f : Nat) (s : State)
    : (afterEvents n es d f s).fb = s.fb := rfl
@[simp] theorem afterEvents_pbuf (n : Nat) (es : List BusEvent) (d : List Answer) (f : Nat) (s : State)
    : (afterEvents n es d f s).pbuf = s.pbuf := rfl
@[simp] theorem afterEvents_log (n : Nat) (es : List BusEvent) (d : List Answer) (f : Nat) (s : State)
    : (afterEvents n es d f s).log = s.log ++ es := rfl
@[simp] theorem afterEvents_staged (n : Nat) (es : List BusEvent) (d : List Answer) (f : Nat) (s : State)
    : (afterEvents n es d f s).staged = s.staged := rfl
@[simp] theorem afterEvents_draws (n : Nat) (es : List BusEvent) (d : List Answer) (f : Nat) (s : State)
    : (afterEvents n es d f s).draws = d := rfl
@[simp] theorem afterEvents_freeCount (n : Nat) (es : List BusEvent) (d : List Answer) (f : Nat) (s : State)
    : (afterEvents n es d f s).freeCount = f := rfl
@[simp] theorem afterEvents_moves (n : Nat) (es : List BusEvent) (d : List Answer) (f : Nat) (s : State)
    : (afterEvents n es d f s).moves = s.moves := rfl
@[simp] theorem afterEvents_readData (n : Nat) (es : List BusEvent) (d : List Answer) (f : Nat) (s : State)
    : (afterEvents n es d f s).readData = s.readData := rfl

/-- A bus call whose answer has been supplied. -/
theorem busCall_supplied (ev : Answer → BusEvent) (s : State) {r : Answer} {rest : List Answer}
    (h : s.draws = r :: rest) : busCall ev s = (r, { s with draws := rest, log := s.log ++ [ev r] }) := by
  simp [busCall, drawAnswer, h]

/-- A bus call answers something, appends its event and takes an answer. -/
theorem busCall_spec (ev : Answer → BusEvent) (s : State) :
    ∃ r d f, busCall ev s = (r, { s with draws := d, freeCount := f, log := s.log ++ [ev r] }) := by
  unfold busCall drawAnswer
  split
  · exact ⟨_, _, s.freeCount, rfl⟩
  · exact ⟨_, s.draws, _, rfl⟩

/-! ## Sequences of transactions -/

/-- The loop of the write primitive sends each chunk with its prefix. -/
theorem sendChunks_eq_sendTxs (b : Byte) (cs : List (List Byte)) (s : State) :
    sendChunks b cs s = sendTxs (cs.map (b :: ·)) s := by
  induction cs generalizing s with
  | nil => rfl
  | cons c cs ih =>
    simp only [sendChunks, List.map_cons, sendTxs]
    split <;> simp_all

/-- `writeCommands` sends the transactions of its sequence. -/
theorem writeCommands_eq (bs : List Byte) (s : State) :
    writeCommands bs s = sendTxs (transactions 0x00 bs) { s with staged := Staged.empty } := by
  simp only [writeCommands, flush, stage, beginSeq, List.nil_append, writeSeq, sendChunks_eq_sendTxs]
  rfl

/-- `writeData` sends the transactions of its sequence. -/
theorem writeData_eq (bs : List Byte) (s : State) :
    writeData bs s = sendTxs (transactions 0x40 bs) { s with staged := Staged.empty } := by
  simp only [writeData, flush, stage, beginSeq, List.nil_append, writeSeq, sendChunks_eq_sendTxs]
  rfl

/-- Two lists of transactions one after the other. -/
theorem sendTxs_append (as bs : List (List Byte)) (s : State) :
    sendTxs (as ++ bs) s =
      match sendTxs as s with
      | (.fail, t) => (.fail, t)
      | (.ok, t) => sendTxs bs t := by
  induction as generalizing s with
  | nil => rfl
  | cons a as ih =>
    simp only [List.cons_append, sendTxs]
    split <;> simp_all

/-- Bus calls after bus calls. -/
@[simp] theorem afterEvents_afterEvents (m n : Nat) (es fs : List BusEvent) (d d' : List Answer) (f f' : Nat)
    (s : State) : afterEvents m fs d' f' (afterEvents n es d f s) = afterEvents (n + m) (es ++ fs) d' f' s := by
  simp only [afterEvents, BitVec.ofNat_add, BitVec.add_assoc, List.append_assoc]

/-- No bus call. -/
@[simp] theorem afterEvents_zero (s : State) : afterEvents 0 [] s.draws s.freeCount s = s := by
  simp only [afterEvents, List.append_nil, BitVec.add_zero]

/-- A bus call that is no write, as an event. -/
theorem busCall_event (ev : Answer → BusEvent) (s : State) :
    ∃ r d f, busCall ev s = (r, afterEvents 0 [ev r] d f s) := by
  obtain ⟨r, d, f, h⟩ := busCall_spec ev s
  exact ⟨r, d, f, by rw [h]; simp only [afterEvents, BitVec.add_zero]⟩

/-- A bus call that is no write, its answer supplied. -/
theorem busCall_event_supplied (ev : Answer → BusEvent) (s : State) {r : Answer} {rest : List Answer}
    (h : s.draws = r :: rest) : busCall ev s = (r, afterEvents 0 [ev r] rest s.freeCount s) := by
  rw [busCall_supplied ev s h]; simp only [afterEvents, BitVec.add_zero]

/-- One counted write. -/
theorem busWrite_countTx (t : List Byte) (s : State) :
    ∃ r d f, busWrite t (countTx s) = (r, afterEvents 1 [.write t r] d f s) :=
  busCall_spec (.write t) (countTx s)

/-- One counted write whose answer has been supplied. -/
theorem busWrite_countTx_supplied (t : List Byte) (s : State) {r : Answer} {rest : List Answer}
    (h : s.draws = r :: rest) :
    busWrite t (countTx s) = (r, afterEvents 1 [.write t r] rest s.freeCount s) :=
  busCall_supplied (.write t) (countTx s) h

/-- Whatever the transport answers: the events delivered, the writes counted, and nothing else changed. -/
theorem sendTxs_spec (ts : List (List Byte)) (s : State) :
    ∃ r es d f, Delivered ts r es ∧ sendTxs ts s = (r, afterEvents es.length es d f s) := by
  induction ts generalizing s with
  | nil => exact ⟨.ok, [], s.draws, s.freeCount, .nil, by simp [sendTxs]⟩
  | cons t ts ih =>
    obtain ⟨r, d, f, h⟩ := busWrite_countTx t s
    cases r with
    | fail => exact ⟨.fail, _, d, f, .fail t ts, by simp only [sendTxs, h, List.length_singleton]⟩
    | ok =>
      obtain ⟨r, es, d', f', hd, hs⟩ := ih (afterEvents 1 [.write t .ok] d f s)
      refine ⟨r, _, d', f', .ok hd, ?_⟩
      simp only [sendTxs, h, hs, afterEvents_afterEvents, List.length_cons, Nat.add_comm 1, List.singleton_append]

/-- Every answer supplied and `ok`: all of them sent. -/
theorem sendTxs_ok (ts : List (List Byte)) (s : State) (rest : List Answer)
    (h : s.draws = List.replicate ts.length .ok ++ rest) :
    sendTxs ts s = (.ok, afterEvents ts.length (sentOk ts) rest s.freeCount s) := by
  induction ts generalizing s with
  | nil =>
    obtain rfl : s.draws = rest := h
    simp [sendTxs, sentOk]
  | cons t ts ih =>
    have hd : s.draws = .ok :: (List.replicate ts.length .ok ++ rest) := h
    simp only [sendTxs, busWrite_countTx_supplied t s hd, sentOk, List.map_cons, List.length_cons]
    rw [ih _ rfl, afterEvents_afterEvents, Nat.add_comm 1]
    rfl

/-- The answers supplied, the `k+1`-th one `fail`: the first `k` sent, and that one failing. -/
theorem sendTxs_fail (ts : List (List Byte)) (s : State) (k : Nat) (hk : k < ts.length) (rest : List Answer)
    (h : s.draws = List.replicate k .ok ++ .fail :: rest) :
    sendTxs ts s =
      (.fail, afterEvents (k + 1) (sentOk (ts.take k) ++ [.write ts[k] .fail]) rest s.freeCount s) := by
  induction ts generalizing s k with
  | nil => simp at hk
  | cons t ts ih =>
    cases k with
    | zero =>
      have hd : s.draws = .fail :: rest := h
      simp only [sendTxs, busWrite_countTx_supplied t s hd]
      rfl
    | succ k =>
      have hd : s.draws = .ok :: (List.replicate k .ok ++ .fail :: rest) := h
      simp only [sendTxs, busWrite_countTx_supplied t s hd]
      rw [ih _ k (by simpa using hk) rfl, afterEvents_afterEvents, Nat.add_comm 1]
      rfl

/-! ## What delivered events look like -/

/-- Every delivered event is a write of one of the transactions. -/
theorem Delivered.mem {ts : List (List Byte)} {r : Answer} {es : List BusEvent} (h : Delivered ts r es) :
    ∀ e ∈ es, ∃ t ∈ ts, ∃ a, e = .write t a := by
  induction h with
  | nil => simp
  | fail t ts => simp
  | ok _ ih =>
    intro e he
    rcases List.mem_cons.mp he with rfl | he
    · exact ⟨_, List.mem_cons_self .., _, rfl⟩
    · obtain ⟨t, ht, a, rfl⟩ := ih e he
      exact ⟨t, List.mem_cons_of_mem _ ht, a, rfl⟩

/-- No more events than transactions. -/
theorem Delivered.length_le {ts : List (List Byte)} {r : Answer} {es : List BusEvent} (h : Delivered ts r es) :
    es.length ≤ ts.length := by
  induction h with
  | nil => simp
  | fail => simp
  | ok _ ih => simpa using ih

/-- Each delivered event is a write, and none is an open or a close. -/
theorem Delivered.counts {ts : List (List Byte)} {r : Answer} {es : List BusEvent} (h : Delivered ts r es) :
    es.countP isWrite = es.length ∧ es.countP isOpenOk = 0 ∧ es.countP isCloseOk = 0 := by
  induction h with
  | nil => simp
  | fail => simp [isWrite, isOpenOk, isCloseOk]
  | ok _ ih => simp [List.countP_cons, ih, isWrite, isOpenOk, isCloseOk]

/-- Every delivered event but the last was answered `ok`; the last was answered `fail` exactly if the sending failed. -/
theorem Delivered.answers {ts : List (List Byte)} {r : Answer} {es : List BusEvent} (h : Delivered ts r es) :
    (∀ e ∈ es.dropLast, e.answer = .ok) ∧ ((∃ e, es.getLast? = some e ∧ e.answer = .fail) ↔ r = .fail) ∧
      (r = .ok → ∀ e ∈ es, e.answer = .ok) := by
  induction h with
  | nil => simp
  | fail => simp [BusEvent.answer]
  | @ok t ts r es _ ih =>
    cases es with
    | nil => simp_all [BusEvent.answer]
    | cons e es =>
      refine ⟨?_, ?_, ?_⟩
      · simpa [BusEvent.answer] using ih.1
      · simpa [List.getLast?_cons_cons] using ih.2.1
      · intro hr
        simpa [BusEvent.answer] using ih.2.2 hr

/-- Delivered one list after another. -/
theorem Delivered.append_ok {ts us : List (List Byte)} {r : Answer} {es fs : List BusEvent}
    (h : Delivered ts .ok es) (h' : Delivered us r fs) : Delivered (ts ++ us) r (es ++ fs) := by
  generalize ha : Answer.ok = a at h
  induction h with
  | nil => exact h'
  | fail => cases ha
  | ok _ ih => exact .ok (ih ha)

/-- A failure leaves the rest of the transactions unsent. -/
theorem Delivered.append_fail {ts : List (List Byte)} {es : List BusEvent} (h : Delivered ts .fail es)
    (us : List (List Byte)) : Delivered (ts ++ us) .fail es := by
  generalize ha : Answer.fail = a at h
  induction h with
  | nil => cases ha
  | fail t ts => exact .fail t (ts ++ us)
  | ok _ ih => exact .ok (ih ha)

/-- Whether a connection is open is untouched by writes. -/
theorem connectionOpen_append (log es : List BusEvent) :
    connectionOpen (log ++ es) =
      es.foldl (fun o e => if isOpenOk e then true else if isCloseOk e then false else o) (connectionOpen log) := by
  simp [connectionOpen]

/-- Delivered writes leave the connection as it was. -/
theorem Delivered.connection {ts : List (List Byte)} {r : Answer} {es : List BusEvent} (h : Delivered ts r es)
    (log : List BusEvent) : connectionOpen (log ++ es) = connectionOpen log := by
  induction h generalizing log with
  | nil => simp
  | fail => simp [connectionOpen_append, isOpenOk, isCloseOk]
  | ok _ ih =>
    rw [List.append_cons, ih]
    simp [connectionOpen_append, isOpenOk, isCloseOk]

/-! ## Chunks -/

/-- The number of transactions of a sequence. -/
theorem transactions_length (b : Byte) (seq : List Byte) : (transactions b seq).length = (seq.length + 31) / 32 := by
  simp [transactions, chunks, ceilDiv]

/-- Every transaction of a sequence has the format, if its mode prefix is one of the two. -/
theorem transactions_valid {b : Byte} (hb : b = 0x00 ∨ b = 0x40) (seq : List Byte) :
    ∀ t ∈ transactions b seq, validTransaction t = true := by
  intro t ht
  simp only [transactions, chunks, ceilDiv, List.mem_map, List.mem_range] at ht
  obtain ⟨c, ⟨k, hk, rfl⟩, rfl⟩ := ht
  rcases hb with rfl | rfl <;> simp [validTransaction] <;> omega

/-- A sequence of 1 to 32 bytes is one transaction. -/
theorem transactions_single (b : Byte) {seq : List Byte} (h1 : 1 ≤ seq.length) (h2 : seq.length ≤ 32) :
    transactions b seq = [b :: seq] := by
  have h : ceilDiv seq.length 32 = 1 := by unfold ceilDiv; omega
  simp [transactions, chunks, h, List.take_of_length_le h2]

end Sys2Proof.Machine
end

