-- ==== Sys2Proof/Laws/Memory.lean ====
section
/-! SUPPORT. The laws of the memories: a read after a write, the canonical form kept by every write, and what a read of
several cells gives. -/

namespace Sys2Proof.Machine

variable {α β : Type}

/-- A read after a write of one cell. -/
@[simp] theorem Memory.get_set (m : List (Nat × α)) (a : Nat) (v : α) (b : Nat) :
    Memory.get (Memory.set m a v) b = if b = a then some v else Memory.get m b := by
  induction m with
  | nil => simp [Memory.set, Memory.get]
  | cons c m ih =>
    obtain ⟨k, w⟩ := c
    simp only [Memory.set]
    split
    · simp [Memory.get]
    · split
      · subst_vars
        by_cases h : b = k <;> simp [Memory.get, h]
      · simp only [Memory.get, ih]
        by_cases h : b = k
        · subst h
          have : ¬ b = a := by omega
          simp [this]
        · simp [h]

/-- A read after a write of a run of cells. -/
theorem Memory.get_setRun (vs : List α) (m : List (Nat × α)) (a b : Nat) :
    Memory.get (Memory.setRun m a vs) b =
      if a ≤ b ∧ b < a + vs.length then vs[b - a]? else Memory.get m b := by
  induction vs generalizing m a with
  | nil =>
    simp [Memory.setRun]
  | cons v vs ih =>
    simp only [Memory.setRun, ih, Memory.get_set, List.length_cons]
    by_cases h1 : a + 1 ≤ b ∧ b < a + 1 + vs.length
    · have h2 : a ≤ b ∧ b < a + (vs.length + 1) := by omega
      have h3 : b - a = (b - (a + 1)) + 1 := by omega
      rw [if_pos h1, if_pos h2, h3, List.getElem?_cons_succ]
    · rw [if_neg h1]
      by_cases h2 : b = a
      · subst h2
        simp
      · have h3 : ¬ (a ≤ b ∧ b < a + (vs.length + 1)) := by omega
        rw [if_neg h2, if_neg h3]

/-- Every index of a written memory is the written one or was there before. -/
theorem Memory.mem_set {m : List (Nat × α)} {a : Nat} {v : α} {c : Nat × α} (h : c ∈ Memory.set m a v) :
    c.1 = a ∨ c ∈ m := by
  induction m with
  | nil => simp_all [Memory.set]
  | cons d m ih =>
    obtain ⟨k, w⟩ := d
    simp only [Memory.set] at h
    split at h
    · rcases List.mem_cons.mp h with rfl | h
      · exact .inl rfl
      · exact .inr h
    · split at h
      · rcases List.mem_cons.mp h with rfl | h
        · exact .inl rfl
        · exact .inr (List.mem_cons_of_mem _ h)
      · rcases List.mem_cons.mp h with rfl | h
        · exact .inr (List.mem_cons_self ..)
        · exact (ih h).imp id (List.mem_cons_of_mem _)

/-- A write keeps the canonical form. -/
theorem Memory.set_wf {m : List (Nat × α)} (h : Memory.wf m) (a : Nat) (v : α) : Memory.wf (Memory.set m a v) := by
  induction m with
  | nil => simp [Memory.set, Memory.wf]
  | cons d m ih =>
    obtain ⟨k, w⟩ := d
    obtain ⟨hk, hm⟩ := List.pairwise_cons.mp h
    simp only [Memory.set]
    split
    · refine List.pairwise_cons.mpr ⟨fun c hc => ?_, h⟩
      rcases List.mem_cons.mp hc with rfl | hc
      · assumption
      · exact lt_trans ‹a < k› (hk c hc)
    · split
      · subst_vars
        exact List.pairwise_cons.mpr ⟨hk, hm⟩
      · refine List.pairwise_cons.mpr ⟨fun c hc => ?_, ih hm⟩
        rcases Memory.mem_set hc with h1 | h1
        · simp only [h1]; omega
        · exact hk c h1

/-- A write of a run keeps the canonical form. -/
theorem Memory.setRun_wf (vs : List α) {m : List (Nat × α)} (h : Memory.wf m) (a : Nat) :
    Memory.wf (Memory.setRun m a vs) := by
  induction vs generalizing m a with
  | nil => exact h
  | cons v vs ih => exact ih (Memory.set_wf h a v) (a + 1)

/-- A write of a run below a bound keeps every index below it. -/
theorem Memory.setRun_bound (vs : List α) {m : List (Nat × α)} {n : Nat} (h : ∀ c ∈ m, c.1 < n) (a : Nat)
    (ha : a + vs.length ≤ n) : ∀ c ∈ Memory.setRun m a vs, c.1 < n := by
  induction vs generalizing m a with
  | nil => exact h
  | cons v vs ih =>
    refine ih (m := Memory.set m a v) (fun c hc => ?_) (a + 1) (by simp at ha; omega)
    rcases Memory.mem_set hc with h1 | h1
    · simp at ha; omega
    · exact h c h1

/-- A read of several elements succeeds exactly if each one does, with their values in order. -/
theorem readAll_eq_ok {f : α → Except Nat β} {as : List α} {bs : List β} :
    readAll f as = .ok bs ↔ as.map f = bs.map .ok := by
  induction as generalizing bs with
  | nil => cases bs <;> simp [readAll]
  | cons a as ih =>
    simp only [readAll]
    cases hf : f a with
    | error e => cases bs <;> simp [hf]
    | ok b =>
      simp only []
      cases hr : readAll f as with
      | error e =>
        cases bs with
        | nil => simp
        | cons c cs =>
          simp only [List.map_cons, hf, List.cons.injEq, reduceCtorEq, false_iff, not_and]
          intro _ h
          rw [ih.mpr h] at hr
          cases hr
      | ok cs =>
        have := ih.mp hr
        cases bs with
        | nil => simp
        | cons c ds =>
          simp only [Except.ok.injEq, List.cons.injEq, List.map_cons, hf, this]
          rw [List.map_inj_right (fun _ _ h => by simpa using h)]

/-- A failed read of several elements names the error of one of them. -/
theorem readAll_error {f : α → Except Nat β} {as : List α} {e : Nat} (h : readAll f as = .error e) :
    ∃ a ∈ as, f a = .error e := by
  induction as with
  | nil => simp [readAll] at h
  | cons a as ih =>
    simp only [readAll] at h
    cases hf : f a with
    | error e' =>
      rw [hf] at h
      exact ⟨a, List.mem_cons_self .., by simpa [hf] using h⟩
    | ok b =>
      rw [hf] at h
      simp only [] at h
      cases hr : readAll f as with
      | error e' =>
        rw [hr] at h
        obtain ⟨c, hc, hfc⟩ := ih (by rw [hr]; simpa using h)
        exact ⟨c, List.mem_cons_of_mem _ hc, hfc⟩
      | ok bs => rw [hr] at h; cases h

/-- A read of several elements depends on nothing but what each read gives. -/
theorem readAll_congr {f g : α → Except Nat β} {as : List α} (h : ∀ a ∈ as, f a = g a) :
    readAll f as = readAll g as := by
  induction as with
  | nil => rfl
  | cons a as ih =>
    simp only [readAll, h a (List.mem_cons_self ..), ih fun b hb => h b (List.mem_cons_of_mem _ hb)]

/-- A read of one cell succeeds with a value exactly if the cell holds it. -/
@[simp] theorem readCell_eq_ok {m : List (Nat × α)} {a : Nat} {v : α} :
    readCell m a = .ok v ↔ Memory.get m a = some v := by
  unfold readCell
  cases Memory.get m a <;> simp

/-- A failed read of one cell names it, and it is unwritten. -/
@[simp] theorem readCell_eq_error {m : List (Nat × α)} {a e : Nat} :
    readCell m a = .error e ↔ e = a ∧ Memory.get m a = none := by
  unfold readCell
  cases Memory.get m a <;> simp [eq_comm]

/-- A read of PBUF gives the bytes its cells hold. -/
theorem readPbuf_eq_ok {pbuf : List Host.Cell} {n : Nat} {bs : List Byte} (hn : bs.length = n)
    (h : ∀ k, (hk : k < bs.length) → Memory.get pbuf k = some bs[k]) : readPbuf pbuf n = .ok bs := by
  refine readAll_eq_ok.mpr (List.ext_getElem (by simp [hn]) fun k h1 h2 => ?_)
  have hk : k < bs.length := by simpa using h2
  simpa using h k hk

/-- A successful read of PBUF gives as many bytes as were asked for. -/
theorem readPbuf_length {pbuf : List Host.Cell} {n : Nat} {bs : List Byte} (h : readPbuf pbuf n = .ok bs) :
    bs.length = n := by
  have := congrArg List.length (readAll_eq_ok.mp h)
  simpa using this.symm

/-- A failed read of PBUF names an unwritten cell below the length. -/
theorem readPbuf_error {pbuf : List Host.Cell} {n a : Nat} (h : readPbuf pbuf n = .error a) :
    a < n ∧ Memory.get pbuf a = none := by
  obtain ⟨b, hb, he⟩ := readAll_error h
  obtain ⟨rfl, hn⟩ := readCell_eq_error.mp he
  exact ⟨List.mem_range.mp hb, hn⟩

end Sys2Proof.Machine
end

