-- ==== Sys2Proof/Laws/Requests.lean ====
section
/-! SUPPORT. What each request does, said once: the requests that write sequences are one list of transactions sent up to
the first failure, and every request that goes on ends in one of the cases of `request_cases`. -/

namespace Sys2Proof.Machine

/-! ## One list of transactions, then the end of the request -/

/-- The error of a request whose last write failed: the cause by that transaction's mode prefix (R202). -/
def failErr (log : List BusEvent) : Err :=
  match log.getLast? with
  | some (.write t _) => if t.head? = some 0x00 then .writeCmd else .writeData
  | some (.opened _ _ _) | some (.closed _) | none => .writeCmd

/-- The end of a request that stays `READY` after its writes. -/
def endSend : Answer × State → State
  | (.ok, t) => done t
  | (.fail, t) => raise (failErr t.log) t

/-- All transactions carry this mode prefix. -/
def AllHead (b : Byte) (ts : List (List Byte)) : Prop := ∀ t ∈ ts, t.head? = some b

/-- The transactions of a sequence carry its mode prefix. -/
theorem transactions_head (b : Byte) (seq : List Byte) : AllHead b (transactions b seq) := by
  intro t ht
  obtain ⟨c, -, rfl⟩ := List.mem_map.mp ht
  rfl

/-- The last delivered event of a failed sending is a failed write of one of the transactions. -/
theorem Delivered.last {ts : List (List Byte)} {es : List BusEvent} (h : Delivered ts .fail es) :
    ∃ t ∈ ts, es.getLast? = some (.write t .fail) := by
  generalize ha : Answer.fail = a at h
  induction h with
  | nil => cases ha
  | fail t ts => exact ⟨t, List.mem_cons_self .., rfl⟩
  | @ok t ts r es h ih =>
    obtain ⟨u, hu, hl⟩ := ih ha
    refine ⟨u, List.mem_cons_of_mem _ hu, ?_⟩
    cases es with
    | nil => cases hl
    | cons e es => rw [List.getLast?_cons_cons]; exact hl

/-- The error after a failed sending of transactions that carry one prefix. -/
theorem failErr_append {ts : List (List Byte)} {es : List BusEvent} (h : Delivered ts .fail es) {b : Byte}
    (hb : AllHead b ts) (log : List BusEvent) :
    failErr (log ++ es) = if b = 0x00 then .writeCmd else .writeData := by
  obtain ⟨t, ht, hl⟩ := h.last
  simp [failErr, List.getLast?_append, hl, hb t ht]

/-- The state with nothing staged. -/
theorem beginRequest_unstaged (s : State) : { beginRequest s with staged := Staged.empty } = beginRequest s := rfl

/-- A sequence written by `writeCommands` or `writeData`, then the end of the request. -/
theorem endWrite_sendTxs {b : Byte} {e : Err} (he : e = if b = 0x00 then .writeCmd else .writeData)
    (ts : List (List Byte)) (hb : AllHead b ts) (s : State) :
    endWrite e (sendTxs ts s) = endSend (sendTxs ts s) := by
  obtain ⟨r, es, d, f, hd, hs⟩ := sendTxs_spec ts s
  cases r with
  | ok => simp [hs, endWrite, endSend]
  | fail =>
    simp only [hs, endWrite, endSend]
    rw [show (afterEvents es.length es d f s).log = s.log ++ es from rfl, failErr_append hd hb, he]

/-- WRCMD's sequence. -/
theorem endWrite_writeCommands (bs : List Byte) (s : State) :
    endWrite .writeCmd (writeCommands bs (beginRequest s)) = endSend (sendTxs (transactions 0x00 bs) (beginRequest s)) := by
  rw [writeCommands_eq, beginRequest_unstaged]
  exact endWrite_sendTxs rfl _ (transactions_head _ _) _

/-- WRDATA's sequence. -/
theorem endWrite_writeData (bs : List Byte) (s : State) :
    endWrite .writeData (writeData bs (beginRequest s)) = endSend (sendTxs (transactions 0x40 bs) (beginRequest s)) := by
  rw [writeData_eq, beginRequest_unstaged]
  exact endWrite_sendTxs rfl _ (transactions_head _ _) _

/-- The transactions of pages from page `p` on, given each page's data (43_render.md R178). -/
def pageTxs : Nat → List (List Byte) → List (List Byte)
  | _, [] => []
  | p, d :: ds => transactions 0x00 (pageSelA p) ++ (transactions 0x40 d ++ pageTxs (p + 1) ds)

/-- One more list of transactions before the end of the request. -/
theorem endSend_append (as bs : List (List Byte)) (s : State) :
    endSend (sendTxs (as ++ bs) s) =
      match sendTxs as s with
      | (.fail, t) => raise (failErr t.log) t
      | (.ok, t) => endSend (sendTxs bs t) := by
  rw [sendTxs_append]
  split <;> simp_all [endSend]

/-- RenderA's transmission is one list of transactions. -/
theorem sendPages_eq (ds : List (List Byte)) (p : Nat) (s : State) (h : s.staged = Staged.empty) :
    sendPages p ds s = endSend (sendTxs (pageTxs p ds) s) := by
  induction ds generalizing p s with
  | nil => rfl
  | cons d ds ih =>
    have hs : { s with staged := Staged.empty } = s := by rw [← h]
    simp only [sendPages, pageTxs, endSend_append, writeCommands_eq, hs]
    obtain ⟨r, es, dr, f, hd, he⟩ := sendTxs_spec (transactions 0x00 (pageSelA p)) s
    cases r with
    | fail =>
      simp only [he, show (afterEvents es.length es dr f s).log = s.log ++ es from rfl,
        failErr_append hd (transactions_head _ _), if_true]
    | ok =>
      have ht : { afterEvents es.length es dr f s with staged := Staged.empty } = afterEvents es.length es dr f s := by
        simp only [afterEvents, h]
      simp only [he, writeData_eq, ht]
      obtain ⟨r', es', dr', f', hd', he'⟩ := sendTxs_spec (transactions 0x40 d) (afterEvents es.length es dr f s)
      cases r' with
      | fail =>
        simp only [he', show (afterEvents es'.length es' dr' f' (afterEvents es.length es dr f s)).log =
          (s.log ++ es) ++ es' from rfl, failErr_append hd' (transactions_head _ _)]
        rfl
      | ok =>
        simp only [he']
        exact ih (p + 1) _ h

/-- RenderB's transmission is one list of transactions. -/
theorem sendFrame_eq (range buf : List Byte) (s : State) (h : s.staged = Staged.empty) :
    sendFrame range buf s = endSend (sendTxs (transactions 0x00 range ++ transactions 0x40 buf) s) := by
  have hs : { s with staged := Staged.empty } = s := by rw [← h]
  simp only [sendFrame, endSend_append, writeCommands_eq, hs]
  obtain ⟨r, es, dr, f, hd, he⟩ := sendTxs_spec (transactions 0x00 range) s
  cases r with
  | fail =>
    simp only [he, show (afterEvents es.length es dr f s).log = s.log ++ es from rfl,
      failErr_append hd (transactions_head _ _), if_true]
  | ok =>
    have ht : { afterEvents es.length es dr f s with staged := Staged.empty } = afterEvents es.length es dr f s := by
      simp only [afterEvents, h]
    simp only [he, writeData_eq, ht]
    exact endWrite_sendTxs rfl _ (transactions_head _ _) _

/-! ## The geometry check -/

/-- The geometry check passes exactly on 1 page up to the variant's limit. -/
theorem geometryOk_iff (var : Variant) (height : BitVec 16) :
    geometryOk var height = true ↔ PagesLegal var height := by
  cases var <;> exact decide_eq_true_iff

/-! ## The cases of a request -/

/-- INIT's transactions. -/
def initTxs (var : Variant) (extra : List Byte) : List (List Byte) :=
  transactions 0x00 (initTable Config.opc var) ++ transactions 0x00 extra

/-- INIT after the open is one list of transactions. -/
theorem initTransmit_eq (var : Variant) (extra : List Byte) (s : State) (h : s.staged = Staged.empty) :
    initTransmit var extra s =
      match sendTxs (initTxs var extra) s with
      | (.fail, t) => raise .writeCmd (setLife .closed t)
      | (.ok, t) => done (setLife .ready t) := by
  have hs : { s with staged := Staged.empty } = s := by rw [← h]
  simp only [initTransmit, initTxs, sendTxs_append, writeCommands_eq, hs]
  obtain ⟨r, es, dr, f, hd, he⟩ := sendTxs_spec (transactions 0x00 (initTable Config.opc var)) s
  cases r with
  | fail => simp only [he]
  | ok =>
    have ht : { afterEvents es.length es dr f s with staged := Staged.empty } = afterEvents es.length es dr f s := by
      simp only [afterEvents, h]
    rcases hu : sendTxs (transactions 0x00 extra) (afterEvents es.length es dr f s) with ⟨r, u⟩
    cases r <;> simp only [he, ht, hu]

/-- INIT once its checks have passed, whatever the transport answers. -/
theorem initConnect_cases (var : Variant) (bus : BitVec 8) (addr : BitVec 7) (extra : List Byte) (s : State)
    (h : s.staged = Staged.empty) :
    (∃ d f, initConnect var bus addr extra s =
        raise .openFailed (setLife .uninit (afterEvents 0 [.opened bus addr .fail] d f s))) ∨
      ∃ r es d f, Delivered (initTxs var extra) r es ∧
        ((r = .fail ∧ initConnect var bus addr extra s = raise .writeCmd (setLife .closed (setHandleOpen true
            (afterEvents es.length (.opened bus addr .ok :: es) d f s)))) ∨
          (r = .ok ∧ initConnect var bus addr extra s = done (setLife .ready (setHandleOpen true
            (afterEvents es.length (.opened bus addr .ok :: es) d f s))))) := by
  obtain ⟨r, d, f, ho⟩ := busCall_event (.opened bus addr) s
  cases r with
  | fail => exact .inl ⟨d, f, by simp only [initConnect, busOpen, ho]⟩
  | ok =>
    obtain ⟨r, es, d', f', hd, hr⟩ := sendTxs_spec (initTxs var extra)
      (setHandleOpen true (afterEvents 0 [.opened bus addr .ok] d f s))
    refine .inr ⟨r, es, d', f', hd, ?_⟩
    have hc : afterEvents es.length es d' f' (setHandleOpen true (afterEvents 0 [.opened bus addr .ok] d f s)) =
        setHandleOpen true (afterEvents es.length (.opened bus addr .ok :: es) d' f' s) := by
      simp only [setHandleOpen, afterEvents, BitVec.add_zero, List.append_assoc, List.singleton_append]
    have hi : initConnect var bus addr extra s =
        initTransmit var extra (setHandleOpen true (afterEvents 0 [.opened bus addr .ok] d f s)) := by
      simp only [initConnect, busOpen, ho]
    rw [hi, initTransmit_eq var extra (setHandleOpen true (afterEvents 0 [.opened bus addr .ok] d f s)) h, hr, hc]
    cases r with
    | fail => exact .inl ⟨rfl, rfl⟩
    | ok => exact .inr ⟨rfl, rfl⟩

/-- CLOSE once it is accepted, whatever the transport answers. -/
theorem closeConnection_cases (s : State) :
    (s.handleOpen = false ∧ closeConnection s = done s) ∨
      ∃ d f, s.handleOpen = true ∧
        (closeConnection s = raise .closeFailed (afterEvents 0 [.closed .fail] d f s) ∨
          closeConnection s = done (setHandleOpen false (afterEvents 0 [.closed .ok] d f s))) := by
  cases h : s.handleOpen with
  | false => exact .inl ⟨rfl, by simp [closeConnection, h]⟩
  | true =>
    obtain ⟨r, d, f, hc⟩ := busCall_event .closed s
    refine .inr ⟨d, f, rfl, ?_⟩
    cases r with
    | fail => left; simp only [closeConnection, h, if_true, busClose, hc]
    | ok => right; simp only [closeConnection, h, if_true, busClose, hc]

/-! ## The data of a frame -/

/-- A read of several elements gives as many values. -/
theorem readAll_length {α β : Type} {f : α → Except Nat β} {as : List α} {bs : List β} (h : readAll f as = .ok bs) :
    bs.length = as.length := by
  have := congrArg List.length (readAll_eq_ok.mp h)
  simpa using this.symm

/-- Variant A's data has a list for each page, each as long as the width. -/
theorem frameDataA_shape {fb : List (Nat × Pixel)} {width pages : Nat} {data : List (List Byte)}
    (h : frameDataA fb width pages = .ok data) : data.length = pages ∧ ∀ d ∈ data, d.length = width := by
  refine ⟨by simpa using readAll_length h, fun d hd => ?_⟩
  have hm : .ok d ∈ data.map (Except.ok (ε := Nat)) := List.mem_map_of_mem hd
  rw [← readAll_eq_ok.mp h] at hm
  obtain ⟨p, -, hp⟩ := List.mem_map.mp hm
  simpa using readAll_length hp

/-- The number of (column, page) pairs. -/
theorem visitB_length (width pages : Nat) : (visitB width pages).length = width * pages := by
  simp [visitB, List.length_flatMap, Nat.mul_comm]

/-- Variant B's buffer has a byte for each column of each page. -/
theorem frameDataB_length {fb : List (Nat × Pixel)} {width pages : Nat} {buf : List Byte}
    (h : frameDataB fb width pages = .ok buf) : buf.length = width * pages := by
  rw [← visitB_length]; exact readAll_length h

/-- The number of transactions of pages of one width (43_render.md R184). -/
theorem pageTxs_length (ds : List (List Byte)) (p width : Nat) (h : ∀ d ∈ ds, d.length = width) :
    (pageTxs p ds).length = ds.length * (1 + (width + 31) / 32) := by
  induction ds generalizing p with
  | nil => simp [pageTxs]
  | cons d ds ih =>
    have hd := h d (List.mem_cons_self ..)
    have hp : (pageSelA p).length = 3 := rfl
    simp only [pageTxs, List.length_append, transactions_length, hd, hp, List.length_cons,
      ih (p + 1) fun e he => h e (List.mem_cons_of_mem _ he)]
    rw [Nat.add_mul, Nat.one_mul]
    omega

/-- Every transaction of a page has the format. -/
theorem pageTxs_valid (ds : List (List Byte)) (p : Nat) : ∀ t ∈ pageTxs p ds, validTransaction t = true := by
  induction ds generalizing p with
  | nil => simp [pageTxs]
  | cons d ds ih =>
    intro t ht
    simp only [pageTxs, List.mem_append] at ht
    rcases ht with ht | ht | ht
    · exact transactions_valid (.inl rfl) _ t ht
    · exact transactions_valid (.inr rfl) _ t ht
    · exact ih (p + 1) t ht

/-! ## Every request that goes on -/

/-- The precondition errors and the reserved `OP`: a request turned away before any effect. -/
def turnedAway : Err → Bool
  | .state | .geometry | .size | .mode | .range | .rsvOp => true
  | .openFailed | .writeCmd | .writeData | .closeFailed | .rsvField => false

/-- The transactions a request sends while it stays `READY`: valid ones, at most 2049 in a legal geometry. -/
structure SendsReady (i : Instr) (s : State) (ts : List (List Byte)) : Prop where
  ready : s.life = .ready
  valid : ∀ t ∈ ts, validTransaction t = true
  bound : GeometryLegal s → ts.length ≤ 2049
  notInit : ∀ v w h b a n, i ≠ .init v w h b a n
  notClose : i ≠ .close
  notPack : ∀ c g, i ≠ .pack c g

/-- The next states of a request. -/
inductive RequestCase (i : Instr) (s : State) : State → Prop
  /-- turned away: nothing but the report and `TXCOUNT` -/
  | away (e : Err) (h : turnedAway e = true) : RequestCase i s (raise e (beginRequest s))
  /-- PACK -/
  | pack (col : BitVec 16) (pg : BitVec 8) (b : Byte) (hi : i = .pack col pg) (h : s.life = .ready) :
      RequestCase i s (done (setPackOut b (beginRequest s)))
  /-- WRCMD, WRDATA and RENDER -/
  | send (ts : List (List Byte)) (r : Answer) (es : List BusEvent) (d : List Answer) (f : Nat)
      (h : SendsReady i s ts) (hd : Delivered ts r es) :
      RequestCase i s (endSend (r, afterEvents es.length es d f (beginRequest s)))
  /-- INIT, the open failing -/
  | openFailed (var : Variant) (width : BitVec 9) (height : BitVec 16) (bus : BitVec 8) (addr : BitVec 7)
      (n : BitVec 16) (hi : i = .init var width height bus addr n) (h : s.life = .uninit)
      (hg : geometryOk var height = true) (d : List Answer) (f : Nat) :
      RequestCase i s (raise .openFailed (setLife .uninit (afterEvents 0 [.opened bus addr .fail] d f
        (loadConfig var width height bus addr (beginRequest s)))))
  /-- INIT, a write failing -/
  | initFailed (var : Variant) (width : BitVec 9) (height : BitVec 16) (bus : BitVec 8) (addr : BitVec 7)
      (n : BitVec 16) (hi : i = .init var width height bus addr n) (h : s.life = .uninit)
      (hg : geometryOk var height = true) (extra : List Byte) (hn : extra.length = n.toNat) (es : List BusEvent)
      (hd : Delivered (initTxs var extra) .fail es) (d : List Answer) (f : Nat) :
      RequestCase i s (raise .writeCmd (setLife .closed (setHandleOpen true
        (afterEvents es.length (.opened bus addr .ok :: es) d f
          (loadConfig var width height bus addr (beginRequest s))))))
  /-- INIT, complete -/
  | initDone (var : Variant) (width : BitVec 9) (height : BitVec 16) (bus : BitVec 8) (addr : BitVec 7)
      (n : BitVec 16) (hi : i = .init var width height bus addr n) (h : s.life = .uninit)
      (hg : geometryOk var height = true) (extra : List Byte) (hn : extra.length = n.toNat) (es : List BusEvent)
      (hd : Delivered (initTxs var extra) .ok es) (d : List Answer) (f : Nat) :
      RequestCase i s (done (setLife .ready (setHandleOpen true
        (afterEvents es.length (.opened bus addr .ok :: es) d f
          (loadConfig var width height bus addr (beginRequest s))))))
  /-- CLOSE with no connection open -/
  | closeIdle (hi : i = .close) (h : s.life ≠ .uninit) (ho : s.handleOpen = false) :
      RequestCase i s (done (setLife .closed (beginRequest s)))
  /-- CLOSE, the close failing -/
  | closeFailed (hi : i = .close) (h : s.life ≠ .uninit) (ho : s.handleOpen = true) (d : List Answer) (f : Nat) :
      RequestCase i s (raise .closeFailed (afterEvents 0 [.closed .fail] d f (setLife .closed (beginRequest s))))
  /-- CLOSE, the connection closed -/
  | closeDone (hi : i = .close) (h : s.life ≠ .uninit) (ho : s.handleOpen = true) (d : List Answer) (f : Nat) :
      RequestCase i s (done (setHandleOpen false (afterEvents 0 [.closed .ok] d f (setLife .closed (beginRequest s)))))

/-- The end of a request after a list of transactions, as a case. -/
theorem RequestCase.ofSend {i : Instr} {s : State} {ts : List (List Byte)} (h : SendsReady i s ts) :
    RequestCase i s (endSend (sendTxs ts (beginRequest s))) := by
  obtain ⟨r, es, d, f, hd, he⟩ := sendTxs_spec ts (beginRequest s)
  rw [he]
  exact .send ts r es d f h hd

/-- INIT. -/
theorem execInit_cases {var : Variant} {width : BitVec 9} {height : BitVec 16} {bus : BitVec 8} {addr : BitVec 7}
    {n : BitVec 16} {s t : State} (h : execInit var width height bus addr n s = .next t) :
    RequestCase (.init var width height bus addr n) s t := by
  unfold execInit at h
  split at h
  · cases h; exact .away _ rfl
  split at h
  · cases h; exact .away _ rfl
  rename_i hl hg
  simp only [ne_eq, Decidable.not_not] at hl
  simp only [Bool.not_eq_false] at hg
  split at h
  · cases h
  · rename_i extra hr
    cases h
    rcases initConnect_cases var bus addr extra (loadConfig var width height bus addr (beginRequest s)) rfl with
      ⟨d, f, h⟩ | ⟨r, es, d, f, hd, ⟨rfl, h⟩ | ⟨rfl, h⟩⟩
    · rw [h]; exact .openFailed _ _ _ _ _ _ rfl hl hg d f
    · rw [h]; exact .initFailed _ _ _ _ _ _ rfl hl hg extra (readPbuf_length hr) es hd d f
    · rw [h]; exact .initDone _ _ _ _ _ _ rfl hl hg extra (readPbuf_length hr) es hd d f

/-- CLOSE. -/
theorem execClose_cases {s t : State} (h : execClose s = .next t) : RequestCase .close s t := by
  unfold execClose at h
  split at h
  · cases h; exact .away _ rfl
  · rename_i hl
    cases h
    rcases closeConnection_cases (setLife .closed (beginRequest s)) with ⟨ho, h⟩ | ⟨d, f, ho, h | h⟩
    · rw [h]; exact .closeIdle rfl hl ho
    · rw [h]; exact .closeFailed rfl hl ho d f
    · rw [h]; exact .closeDone rfl hl ho d f

/-- WRCMD. -/
theorem execWrcmd_cases {len : BitVec 16} {s t : State} (h : execWrcmd len s = .next t) :
    RequestCase (.wrcmd len) s t := by
  unfold execWrcmd at h
  split at h
  · cases h; exact .away _ rfl
  rename_i hl
  split at h
  · cases h
  · rename_i seq hr
    cases h
    rw [endWrite_writeCommands]
    refine .ofSend ⟨by simpa using hl, transactions_valid (.inl rfl) _, fun _ => ?_, nofun, nofun, nofun⟩
    rw [transactions_length, readPbuf_length hr]
    omega

/-- WRDATA. -/
theorem execWrdata_cases {len : BitVec 16} {s t : State} (h : execWrdata len s = .next t) :
    RequestCase (.wrdata len) s t := by
  unfold execWrdata at h
  split at h
  · cases h; exact .away _ rfl
  rename_i hl
  split at h
  · cases h
  · rename_i seq hr
    cases h
    rw [endWrite_writeData]
    refine .ofSend ⟨by simpa using hl, transactions_valid (.inr rfl) _, fun _ => ?_, nofun, nofun, nofun⟩
    rw [transactions_length, readPbuf_length hr]
    omega

/-- PACK. -/
theorem execPack_cases {col : BitVec 16} {pg : BitVec 8} {s t : State} (h : execPack col pg s = .next t) :
    RequestCase (.pack col pg) s t := by
  unfold execPack at h
  split at h
  · cases h; exact .away _ rfl
  rename_i hl
  split at h
  · cases h; exact .away _ rfl
  split at h
  · cases h
  · cases h; exact .pack col pg _ rfl (by simpa using hl)

/-- RENDER. -/
theorem execRender_cases {fbw : BitVec 9} {fbh : BitVec 16} {mode1 : Bool} {s t : State}
    (h : execRender fbw fbh mode1 s = .next t) : RequestCase (.render fbw fbh mode1) s t := by
  unfold execRender at h
  split at h
  · cases h; exact .away _ rfl
  rename_i hl
  split at h
  · cases h; exact .away _ rfl
  split at h
  · cases h; exact .away _ rfl
  split at h
  · rename_i hv
    unfold renderA at h
    split at h
    · cases h
    · rename_i data hr
      cases h
      rw [sendPages_eq _ _ _ rfl]
      obtain ⟨h1, h2⟩ := frameDataA_shape hr
      refine .ofSend ⟨by simpa using hl, pageTxs_valid _ _, fun hg => ?_, nofun, nofun, nofun⟩
      rw [pageTxs_length _ _ _ h2, h1]
      obtain ⟨⟨-, hw⟩, -, -, hp⟩ := hg
      rw [hv] at hp
      simp only [beginRequest_width, beginRequest_pages]
      have hc : 1 + (s.width.toNat + 31) / 32 ≤ 9 := by omega
      exact (Nat.mul_le_mul hp hc).trans (by norm_num)
  · rename_i hv
    unfold renderB at h
    split at h
    · cases h
    · rename_i buf hr
      cases h
      rw [sendFrame_eq _ _ _ rfl]
      have hb := frameDataB_length hr
      refine .ofSend ⟨by simpa using hl, ?_, fun hg => ?_, nofun, nofun, nofun⟩
      · intro t ht
        rcases List.mem_append.mp ht with ht | ht
        · exact transactions_valid (.inl rfl) _ t ht
        · exact transactions_valid (.inr rfl) _ t ht
      · obtain ⟨⟨-, hw⟩, -, -, hp⟩ := hg
        rw [hv] at hp
        have hm : s.width.toNat * s.pages.toNat ≤ 256 * 256 := Nat.mul_le_mul hw hp
        rw [List.length_append, transactions_length, transactions_length, hb,
          show (rangeCmdB Config.opc (beginRequest s).width (beginRequest s).pages).length = 6 from rfl]
        simp only [beginRequest_width, beginRequest_pages]
        omega

/-- Every request that goes on ends in one of the cases. -/
theorem request_cases {i : Instr} {s t : State} (hi : isRequest i = true) (h : exec i s = .next t) :
    RequestCase i s t := by
  cases i <;> first | exact absurd hi Bool.false_ne_true | skip
  case init => exact execInit_cases h
  case wrcmd => exact execWrcmd_cases h
  case wrdata => exact execWrdata_cases h
  case render => exact execRender_cases h
  case close => exact execClose_cases h
  case pack => exact execPack_cases h
  case reservedOp0 => cases h; exact .away _ rfl
  case reservedOp7 => cases h; exact .away _ rfl
  case reservedOp8F => cases h; exact .away _ rfl

/-! ## The rows of the wire vocabulary -/

/-- The sequencer's emission, as a state. -/
theorem emitCommand_eq (bs : List Byte) (s : State) : emitCommand bs s = afterEmit bs s := by
  unfold emitCommand afterEmit
  cases h : s.staged.kind <;> simp [stage, beginSeq, h]

/-- A row of the wire vocabulary always goes on, and changes nothing but what is staged. -/
theorem wire_cases {i : Instr} (hi : isRequest i = false) (s : State) :
    ∃ g, exec i s = .next { s with staged := g } := by
  cases i <;> first
    | exact absurd hi.symm Bool.false_ne_true
    | exact ⟨_, rfl⟩
    | exact ⟨_, congrArg Host.Outcome.next (emitCommand_eq _ s)⟩

end Sys2Proof.Machine
end

