-- ==== Sys2Proof/Laws/Frames.lean ====
section
/-! SUPPORT. Packing and the data of a frame, said once: a column's read succeeds exactly if its eight cells are written,
what a frame's reads give, and the transactions made of it. -/

namespace Sys2Proof.Machine

/-! ## Packing -/

/-- Bit `n` of the sum is element `n`. -/
theorem packBits_testBit (px : List Pixel) (n : Nat) : (packBits px).testBit n = (px[n]?).getD false := by
  induction px generalizing n with
  | nil => simp [packBits]
  | cons b bs ih =>
    cases n with
    | zero => cases b <;> simp [packBits, Nat.testBit_zero]
    | succ n =>
      have h : (packBits (b :: bs)) / 2 = packBits bs := by cases b <;> (simp [packBits]; try omega)
      rw [Nat.testBit_succ, h, ih]; simp

/-- A written pixel is the value its cell holds. -/
theorem pixelWritten_iff {s : State} {x y : Nat} :
    PixelWritten s x y ↔ Memory.get s.fb (y * s.width.toNat + x) = some (pixelAt s x y) := by
  unfold PixelWritten pixelAt
  cases Memory.get s.fb _ <;> simp

/-- A column whose eight cells are written is read as its byte. -/
theorem packColumn_ok {s : State} {x p : Nat} (h : ∀ n, n < 8 → PixelWritten s x (8 * p + n)) :
    packColumn s.fb s.width.toNat x p = .ok (columnByte s x p) := by
  have hr : readAll (readCell s.fb) (columnCells s.width.toNat x p) =
      .ok ((List.range 8).map fun n => pixelAt s x (8 * p + n)) := by
    rw [readAll_eq_ok]
    simp only [columnCells, List.map_map]
    refine List.map_congr_left fun n hn => ?_
    simpa [fbIndex] using pixelWritten_iff.mp (h n (List.mem_range.mp hn))
  rw [packColumn, hr]; rfl

/-- A failed read of a column names one of its cells, and that one is unwritten. -/
theorem packColumn_error {fb : List (Nat × Pixel)} {w x p e : Nat} (h : packColumn fb w x p = .error e) :
    ∃ n, n < 8 ∧ e = (8 * p + n) * w + x ∧ Memory.get fb e = none := by
  unfold packColumn at h
  split at h <;> cases h
  rename_i h
  obtain ⟨a, ha, he⟩ := readAll_error h
  obtain ⟨rfl, hn⟩ := readCell_eq_error.mp he
  simp only [columnCells, List.mem_map, List.mem_range] at ha
  obtain ⟨n, hn', rfl⟩ := ha
  exact ⟨n, hn', rfl, hn⟩

/-- A column that was read has its eight cells written. -/
theorem packColumn_written {s : State} {x p : Nat} {b : Byte} (h : packColumn s.fb s.width.toNat x p = .ok b) (n : Nat)
    (hn : n < 8) : PixelWritten s x (8 * p + n) := by
  unfold packColumn at h
  split at h <;> cases h
  rename_i px hr
  have hm := congrArg (fun l => l[n]?) (readAll_eq_ok.mp hr)
  have hl : px.length = 8 := by simpa [columnCells] using readAll_length hr
  simp only [columnCells, List.map_map, List.getElem?_map, List.getElem?_range, hn, Option.map_some, Function.comp,
    fbIndex] at hm
  rw [List.getElem?_eq_getElem (by omega)] at hm
  simp only [Option.map_some, Option.some.injEq] at hm
  rw [readCell_eq_ok] at hm
  simp [PixelWritten, hm]

/-- A column's read depends only on its eight cells. -/
theorem packColumn_congr {fb fb' : List (Nat × Pixel)} {w x p : Nat}
    (h : ∀ n, n < 8 → Memory.get fb' ((8 * p + n) * w + x) = Memory.get fb ((8 * p + n) * w + x)) :
    packColumn fb' w x p = packColumn fb w x p := by
  unfold packColumn
  rw [readAll_congr (g := readCell fb)]
  intro a ha
  simp only [columnCells, List.mem_map, List.mem_range] at ha
  obtain ⟨n, hn, rfl⟩ := ha
  simp only [readCell, fbIndex, h n hn]

/-- A cell of a column of the frame is below the frame's end (20_memory.md R45). -/
theorem fbIndex_lt {w pages x p n : Nat} (hx : x < w) (hp : p < pages) (hn : n < 8) :
    (8 * p + n) * w + x < w * 8 * pages := by
  have h : (8 * p + n + 1) * w ≤ (8 * pages) * w := Nat.mul_le_mul_right _ (by omega)
  rw [Nat.add_mul] at h
  rw [Nat.mul_assoc, Nat.mul_comm w]; omega

/-! ## The data of a frame -/

/-- Variant A's data of a written frame. -/
theorem frameDataA_ok {s : State} (h : FrameWritten s) : frameDataA s.fb s.width.toNat s.pages.toNat =
    .ok ((List.range s.pages.toNat).map fun p => (List.range s.width.toNat).map fun x => columnByte s x p) := by
  rw [frameDataA, readAll_eq_ok, List.map_map]
  refine List.map_congr_left fun p hp => ?_
  show pageDataA _ _ _ = .ok _
  rw [pageDataA, readAll_eq_ok, List.map_map]
  refine List.map_congr_left fun x hx => ?_
  simp only [List.mem_range] at hp hx
  exact packColumn_ok fun n hn => h x _ hx (by show 8 * p + n < _; omega)

/-- Variant B's buffer of a written frame. -/
theorem frameDataB_ok {s : State} (h : FrameWritten s) : frameDataB s.fb s.width.toNat s.pages.toNat =
    .ok ((List.range s.pages.toNat).flatMap fun p =>
      (List.range s.width.toNat).reverse.map fun x => columnByte s x p) := by
  rw [frameDataB, readAll_eq_ok, visitB]
  simp only [List.flatMap_def, List.map_flatten, List.map_map]
  congr 1
  refine List.map_congr_left fun p hp => ?_
  simp only [Function.comp, List.map_map]
  refine List.map_congr_left fun x hx => ?_
  simp only [List.mem_reverse, List.mem_range] at hp hx
  exact packColumn_ok fun n hn => h x _ hx (by show 8 * p + n < _; omega)

/-- The `k`-th (column, page) pair of Variant B's order. -/
theorem visitB_getElem? (w n k : Nat) (h : k < w * n) : (visitB w n)[k]? = some (w - 1 - k % w, k / w) := by
  have hw : 0 < w := Nat.pos_of_ne_zero (by rintro rfl; simp at h)
  induction n with
  | zero => simp at h
  | succ n ih =>
    have hs : visitB w (n + 1) = visitB w n ++ (List.range w).reverse.map fun x => (x, n) := by
      simp [visitB, List.range_succ]
    rw [hs]
    by_cases hk : k < w * n
    · rw [List.getElem?_append_left (by rwa [visitB_length]), ih hk]
    · have hd : k / w = n := by
        rw [Nat.div_eq_iff hw]; rw [Nat.mul_succ] at h; rw [Nat.mul_comm n w]; omega
      have hm : k % w = k - w * n := by
        have := Nat.div_add_mod k w; rw [hd] at this; omega
      have hl : k - w * n < w := by rw [Nat.mul_succ] at h; omega
      rw [List.getElem?_append_right (by rw [visitB_length]; omega), visitB_length, List.getElem?_map,
        List.getElem?_reverse (by simpa), List.length_range, List.getElem?_range (by omega), hd, hm]
      rfl

/-- The transactions of Variant A's pages, as Safety names them. -/
theorem pageTxs_eq (s : State) (p n : Nat) :
    pageTxs p ((List.range' p n).map fun q => (List.range s.width.toNat).map fun x => columnByte s x q) =
      (List.range' p n).flatMap fun q => [0x00, 0xB0 + BitVec.ofNat 8 q, 0x02, 0x10] ::
        transactions 0x40 ((List.range s.width.toNat).map fun x => columnByte s x q) := by
  induction n generalizing p with
  | zero => rfl
  | succ n ih =>
    rw [List.range'_succ, List.map_cons, pageTxs, List.flatMap_cons, ih,
      transactions_single 0x00 (show 1 ≤ (pageSelA p).length from Nat.le_add_left 1 2)
        (show (pageSelA p).length ≤ 32 from Nat.le_add_right 3 29)]
    simp [pageSelA, pageSelectBytes, pageColLoBytes, pageColHiBytes, Config.pageSelectBase, Config.pageColLo,
      Config.pageColHi]

end Sys2Proof.Machine
end

