-- ==== Sys2Proof/Laws/PerInstr.lean ====
section
/-! SUPPORT. For each row of the opcode table: the encoding of its instruction has the row's fixed bits. -/

namespace Sys2Proof.Laws

/-- The bits of a code as the opcode table numbers them: `OPW` is bits 31..0, `ARG` is bits 63..32. -/
def tableBits : Code → Nat
  | .request opw arg => opw.toNat + 2 ^ 32 * arg.toNat
  | .wire _ b => b.toNat

/-- The fixed bits of an instruction's row, each run of them as its lowest bit, its length and its value. -/
def TableRow.fixed : Instr → List (Nat × Nat × Nat)
  | .init _ _ _ _ _ _ => [(0, 4, 1), (5, 3, 0), (47, 1, 0)]
  | .wrcmd _ => [(0, 16, 2), (32, 32, 0)]
  | .wrdata _ => [(0, 16, 3), (32, 32, 0)]
  | .render _ _ _ => [(0, 8, 4), (33, 31, 0)]
  | .close => [(0, 32, 5), (32, 32, 0)]
  | .pack _ _ => [(0, 8, 6), (32, 32, 0)]
  | .reservedOp0 _ _ => [(0, 4, 0)]
  | .reservedOp7 _ _ => [(0, 4, 7)]
  | .reservedOp8F _ _ _ => [(3, 1, 1)]
  | .displayOff => [(0, 8, 0xAE)]
  | .setMemoryMode => [(0, 8, 0x20)]
  | .setHighColumn => [(0, 8, 0x10)]
  | .setLowColumn => [(0, 8, 0x00)]
  | .setContrast => [(0, 8, 0x81)]
  | .segmentRemap => [(0, 8, 0xA1)]
  | .normalDisplay => [(0, 8, 0xA6)]
  | .setMultiplex => [(0, 8, 0xA8)]
  | .displayAllOnResume => [(0, 8, 0xA4)]
  | .setDisplayOffset => [(0, 8, 0xD3)]
  | .setClockDiv => [(0, 8, 0xD5)]
  | .setPrecharge => [(0, 8, 0xD9)]
  | .setComPins => [(0, 8, 0xDA)]
  | .setVcomDetect => [(0, 8, 0xDB)]
  | .chargePump => [(0, 8, 0x8D)]
  | .displayOn => [(0, 8, 0xAF)]
  | .setStartLine => [(0, 8, 0x40)]
  | .comScanDec => [(0, 8, 0xC8)]
  | .columnAddr => [(0, 8, 0x21)]
  | .pageAddr => [(0, 8, 0x22)]
  | .pageSelect _ => [(4, 4, 0xB)]
  | .pageColLo => [(0, 8, 0x02)]
  | .pageColHi => [(0, 8, 0x10)]
  | .prefixCmd => [(0, 8, 0x00)]
  | .prefixData => [(0, 8, 0x40)]

/-- A well-formed instruction's encoding has the fixed bits of its row. -/
def TableRow.Statement (i : Instr) : Prop :=
  i.wf = true → ∀ f ∈ TableRow.fixed i, tableBits (encode i) / 2 ^ f.1 % 2 ^ f.2.1 = f.2.2

/-- The requests' words have the numbers of their fields; the rest is arithmetic. -/
theorem tableBits_request (a16 : BitVec 16) (a8 : BitVec 8) (r : BitVec 3) (v : BitVec 1) (op : BitVec 4) (arg : Word) :
    tableBits (.request (a16 ++ a8 ++ r ++ v ++ op) arg) =
      a16.toNat * 2 ^ 16 + a8.toNat * 2 ^ 8 + r.toNat * 2 ^ 5 + v.toNat * 2 ^ 4 + op.toNat + 2 ^ 32 * arg.toNat := by
  rw [tableBits, opw_toNat]

theorem TableRow.init (var : Variant) (width : BitVec 9) (height : BitVec 16) (bus : BitVec 8) (addr : BitVec 7)
    (nextra : BitVec 16) : TableRow.Statement (.init var width height bus addr nextra) := by
  intro _ f hf
  have := var.bit.isLt
  have := addr.isLt
  have := bus.isLt
  have := (fieldOfWidth width).isLt
  have := height.isLt
  have := nextra.isLt
  simp only [TableRow.fixed, List.mem_cons, List.not_mem_nil, or_false] at hf
  rcases hf with rfl | rfl | rfl <;> simp only [encode, tableBits_request, arg_toNat, BitVec.toNat_ofNat] <;> omega

theorem TableRow.wrcmd (len : BitVec 16) : TableRow.Statement (.wrcmd len) := by
  intro _ f hf
  have := len.isLt
  simp only [TableRow.fixed, List.mem_cons, List.not_mem_nil, or_false] at hf
  rcases hf with rfl | rfl <;> simp only [encode, tableBits_request, BitVec.toNat_ofNat] <;> omega

theorem TableRow.wrdata (len : BitVec 16) : TableRow.Statement (.wrdata len) := by
  intro _ f hf
  have := len.isLt
  simp only [TableRow.fixed, List.mem_cons, List.not_mem_nil, or_false] at hf
  rcases hf with rfl | rfl <;> simp only [encode, tableBits_request, BitVec.toNat_ofNat] <;> omega

theorem TableRow.render (fbw : BitVec 9) (fbh : BitVec 16) (mode1 : Bool) :
    TableRow.Statement (.render fbw fbh mode1) := by
  intro _ f hf
  have := (fieldOfWidth fbw).isLt
  have := fbh.isLt
  have hm : (0#31 ++ BitVec.ofBool mode1 : Word).toNat = mode1.toNat := by cases mode1 <;> rfl
  have := mode1.toNat_lt
  simp only [TableRow.fixed, List.mem_cons, List.not_mem_nil, or_false] at hf
  rcases hf with rfl | rfl <;> simp only [encode, tableBits_request, hm, BitVec.toNat_ofNat] <;> omega

theorem TableRow.close : TableRow.Statement .close := by
  intro _; decide

theorem TableRow.pack (col : BitVec 16) (pg : BitVec 8) : TableRow.Statement (.pack col pg) := by
  intro _ f hf
  have := col.isLt
  have := pg.isLt
  simp only [TableRow.fixed, List.mem_cons, List.not_mem_nil, or_false] at hf
  rcases hf with rfl | rfl <;> simp only [encode, tableBits_request, BitVec.toNat_ofNat] <;> omega

theorem TableRow.reservedOp0 (hi : BitVec 28) (arg : Word) : TableRow.Statement (.reservedOp0 hi arg) := by
  intro _ f hf
  simp only [TableRow.fixed, List.mem_singleton] at hf
  subst hf
  simp only [encode, tableBits, reservedOpw_toNat, BitVec.toNat_ofNat]; omega

theorem TableRow.reservedOp7 (hi : BitVec 28) (arg : Word) : TableRow.Statement (.reservedOp7 hi arg) := by
  intro _ f hf
  simp only [TableRow.fixed, List.mem_singleton] at hf
  subst hf
  simp only [encode, tableBits, reservedOpw_toNat, BitVec.toNat_ofNat]; omega

theorem TableRow.reservedOp8F (op : BitVec 4) (hi : BitVec 28) (arg : Word) :
    TableRow.Statement (.reservedOp8F op hi arg) := by
  intro hwf f hf
  have h8 : 8 ≤ op.toNat := by simpa [Instr.wf, opInUpperHalf] using hwf
  have := op.isLt
  simp only [TableRow.fixed, List.mem_singleton] at hf
  subst hf
  simp only [encode, tableBits, reservedOpw_toNat]; omega

theorem TableRow.displayOff : TableRow.Statement .displayOff := by
  intro _; decide

theorem TableRow.setMemoryMode : TableRow.Statement .setMemoryMode := by
  intro _; decide

theorem TableRow.setHighColumn : TableRow.Statement .setHighColumn := by
  intro _; decide

theorem TableRow.setLowColumn : TableRow.Statement .setLowColumn := by
  intro _; decide

theorem TableRow.setContrast : TableRow.Statement .setContrast := by
  intro _; decide

theorem TableRow.segmentRemap : TableRow.Statement .segmentRemap := by
  intro _; decide

theorem TableRow.normalDisplay : TableRow.Statement .normalDisplay := by
  intro _; decide

theorem TableRow.setMultiplex : TableRow.Statement .setMultiplex := by
  intro _; decide

theorem TableRow.displayAllOnResume : TableRow.Statement .displayAllOnResume := by
  intro _; decide

theorem TableRow.setDisplayOffset : TableRow.Statement .setDisplayOffset := by
  intro _; decide

theorem TableRow.setClockDiv : TableRow.Statement .setClockDiv := by
  intro _; decide

theorem TableRow.setPrecharge : TableRow.Statement .setPrecharge := by
  intro _; decide

theorem TableRow.setComPins : TableRow.Statement .setComPins := by
  intro _; decide

theorem TableRow.setVcomDetect : TableRow.Statement .setVcomDetect := by
  intro _; decide

theorem TableRow.chargePump : TableRow.Statement .chargePump := by
  intro _; decide

theorem TableRow.displayOn : TableRow.Statement .displayOn := by
  intro _; decide

theorem TableRow.setStartLine : TableRow.Statement .setStartLine := by
  intro _; decide

theorem TableRow.comScanDec : TableRow.Statement .comScanDec := by
  intro _; decide

theorem TableRow.columnAddr : TableRow.Statement .columnAddr := by
  intro _; decide

theorem TableRow.pageAddr : TableRow.Statement .pageAddr := by
  intro _; decide

theorem TableRow.pageSelect (p : BitVec 4) : TableRow.Statement (.pageSelect p) := by
  intro _; revert p; decide

theorem TableRow.pageColLo : TableRow.Statement .pageColLo := by
  intro _; decide

theorem TableRow.pageColHi : TableRow.Statement .pageColHi := by
  intro _; decide

theorem TableRow.prefixCmd : TableRow.Statement .prefixCmd := by
  intro _; decide

theorem TableRow.prefixData : TableRow.Statement .prefixData := by
  intro _; decide

end Sys2Proof.Laws
end

