-- ==== Sys2Proof/Laws/Step.lean ====
section
/-! SUPPORT. The step, said once: with no move to come nothing happens, and otherwise the next move is done. What decodes
from a wire byte is no request; what the block's emissions amount to. -/

namespace Sys2Proof.Machine

/-- With no move to come the step changes nothing. -/
theorem step_idle {s : State} (h : s.moves = []) : step s = .next s := by simp [step, takeMove, h]

/-- With a move to come the step is that move, in the state with the others to come. -/
theorem step_move {s : State} {m : Move} {ms : List Move} (h : s.moves = m :: ms) :
    step s = applyMove m { s with moves := ms } := by simp [step, takeMove, h]

/-- A request whose words decode runs its instruction. -/
theorem launch_of_decode {s : State} {i : Instr} (h : decodeRequest s.opw s.arg = .ok i) : launch s = exec i s := by
  simp [launch, h]

/-- A request whose words do not decode is illegal by a reserved field. -/
theorem launch_of_error {s : State} {e : DecodeError} (h : decodeRequest s.opw s.arg = .error e) :
    launch s = .next (illegalRequest .rsvField s) := by
  simp [launch, h]

/-- The instruction found in a table is one of its rows. -/
theorem lookupOpcode_mem {b : Byte} {rows : List (Byte × Instr)} {i : Instr} (h : lookupOpcode b rows = some i) :
    (b, i) ∈ rows := by
  induction rows with
  | nil => cases h
  | cons r rows ih =>
    obtain ⟨k, j⟩ := r
    simp only [lookupOpcode] at h
    split at h
    · subst_vars; cases h; exact List.mem_cons_self ..
    · exact List.mem_cons_of_mem _ (ih h)

/-- What decodes from a wire byte is no host request. -/
theorem decodeWire_not_request {pos : WirePos} {b : Byte} {i : Instr} (h : decodeWire pos b = .ok i) :
    isRequest i = false := by
  cases pos <;> simp only [decodeWire, decodeOpcode] at h
  case command =>
    split at h
    · rename_i j hj
      cases h
      have hr : ∀ r ∈ opcodeRows Config.opc, isRequest r.2 = false := by decide
      exact hr _ (lookupOpcode_mem hj)
    · split at h <;> cases h; rfl
  all_goals
    repeat' split at h
    all_goals cases h; try rfl

/-- Two emissions, one after the other. -/
@[simp] theorem afterEmit_afterEmit (as bs : List Byte) (s : State) :
    afterEmit bs (afterEmit as s) = afterEmit (as ++ bs) s := by
  simp [afterEmit]

/-- The width that INIT's words give is 1 to 256. -/
theorem decodeRequest_init_width {opw arg : Word} {v : Variant} {w : BitVec 9} {h : BitVec 16} {b : BitVec 8}
    {a : BitVec 7} {n : BitVec 16} (hd : decodeRequest opw arg = .ok (.init v w h b a n)) :
    1 ≤ w.toNat ∧ w.toNat ≤ 256 := by
  unfold decodeRequest at hd
  repeat' split at hd
  all_goals first
    | (cases hd; simpa [widthEncodable] using widthOfField_encodable (a8Field opw))
    | cases hd

end Sys2Proof.Machine
end

