-- ==== Sys2Proof/Tests/Slice0.lean ====
section
/-! SUPPORT. Tests of one step or one decoding each, their expected values from the spec's own tables and vectors (R<n>, and
L<n> of 95_test_vectors.md), and for each statement with hypotheses a state and operands that meet them. -/

namespace Sys2Proof.Tests

open Sys2Proof.Machine

/-! ## States -/

/-- The reset state with these moves to come and these answers supplied. -/
def fresh (ms : List Move) (rs : List Answer) : State := { State.reset with moves := ms, draws := rs }

/-- A `READY` device of width 3 and height 8 on bus 1 at address `0x3C` (L2-15), with a move to come. -/
def ready (var : Variant) (ms : List Move) (rs : List Answer) : State :=
  { State.reset with
    life := .ready, handleOpen := true, variant := var, busIndex := 1, devAddr := 0x3C, width := 3, height := 8,
    pages := 1, log := [.opened 1 0x3C .ok], moves := ms, draws := rs }

/-- The FB of L2-15: all 0 except `(0,0)` and `(1,7)`, on width 3 and height 8. -/
def fb3x8 : List (Nat × Pixel) :=
  (List.range 24).map fun i => (i, decide (i = 0 ∨ i = 22))

/-- The `READY` device with the FB of L2-15. -/
def framed (var : Variant) (ms : List Move) (rs : List Answer) : State := { ready var ms rs with fb := fb3x8 }

/-- The `READY` device with three bytes in PBUF (L2-8). -/
def loaded (ms : List Move) (rs : List Answer) : State :=
  { ready .A ms rs with pbuf := [(0, 0xA7), (1, 0x81), (2, 0x10)] }

/-- The `CLOSED` device whose connection is open, as a failed INIT leaves it. -/
def closedOpen (ms : List Move) (rs : List Answer) : State :=
  { ready .A ms rs with life := .closed, result := 3, cause := 1 }

/-- The next state of an outcome. -/
def next? : Result → Option State
  | .next t => some t
  | .fault _ => none
  | .refused _ => none

/-! ## Decoding: words from the patterns of R76 to R81 -/

theorem test_decode_init_b :
    decode (.request 0b00000000010000000111111100010001 0b00000000000000000011110000000001) = .ok (.init .B 128 64 1 0x3C 0) := by decide

theorem test_decode_init_a_extra :
    decode (.request 0b00000000000100000000001100000001 0b00000000000000010011110000000001) = .ok (.init .A 4 16 1 0x3C 1) := by decide

theorem test_decode_init_width_256 :
    decode (.request 0b00001000000000001111111100010001 0b00000000000000000111111111111111) = .ok (.init .B 256 2048 255 0x7F 0) := by decide

theorem test_decode_wrcmd :
    decode (.request 0b00000000000000110000000000000010 0) = .ok (.wrcmd 3) := by decide

theorem test_decode_wrdata :
    decode (.request 0b00000000001000010000000000000011 0) = .ok (.wrdata 33) := by decide

theorem test_decode_render :
    decode (.request 0b00000000010000000111111100000100 1) = .ok (.render 128 64 true) := by decide

theorem test_decode_render_other_mode :
    decode (.request 0b00000000000100000000001100000100 0) = .ok (.render 4 16 false) := by decide

theorem test_decode_close :
    decode (.request 0b00000000000000000000000000000101 0) = .ok .close := by decide

theorem test_decode_pack :
    decode (.request 0b00000000000000100000000100000110 0) = .ok (.pack 2 1) := by decide

theorem test_decode_reserved_op_0 :
    decode (.request 0b00000000000000000000000000000000 0xFFFFFFFF) = .ok (.reservedOp0 0 0xFFFFFFFF) := by decide

theorem test_decode_reserved_op_7 :
    decode (.request 0b00000000000000000000000011110111 0) = .ok (.reservedOp7 0xF 0) := by decide

theorem test_decode_reserved_op_8 :
    decode (.request 0b00000000000000000000000000001000 0) = .ok (.reservedOp8F 8 0 0) := by decide

theorem test_decode_reserved_op_f :
    decode (.request 0b00000000000000000000000011111111 0) = .ok (.reservedOp8F 0xF 0xF 0) := by decide

/-- L2-22: the must-be-zero fields. -/
theorem test_decode_reserved_fields :
    [(0x00407F01, 0x00008001), (0x00407F21, 0x00003C01), (0x00000015, 0), (0x00000105, 0), (0x00000005, 1),
      (0x00000102, 0), (0x00010003, 1), (0x00407F04, 2), (0x00020106, 0x00010000)].all
      (fun w : Word × Word => decide (decode (.request w.1 w.2) = .error .reservedField)) = true := by decide

/-! ## Decoding: the bytes of R83 and R103 to R124 -/

theorem test_decode_opcodes :
    [(0xAE, .displayOff), (0x20, .setMemoryMode), (0x10, .setHighColumn), (0x00, .setLowColumn),
      (0x81, .setContrast), (0xA1, .segmentRemap), (0xA6, .normalDisplay), (0xA8, .setMultiplex),
      (0xA4, .displayAllOnResume), (0xD3, .setDisplayOffset), (0xD5, .setClockDiv), (0xD9, .setPrecharge),
      (0xDA, .setComPins), (0xDB, .setVcomDetect), (0x8D, .chargePump), (0xAF, .displayOn),
      (0x40, .setStartLine), (0xC8, .comScanDec), (0x21, .columnAddr), (0x22, .pageAddr),
      (0xB0, .pageSelect 0), (0xBF, .pageSelect 15)].all
      (fun r : Byte × Instr => decide (decode (.wire .command r.1) = .ok r.2)) = true := by decide

theorem test_decode_page_columns :
    decode (.wire .pageColLo 0x02) = .ok .pageColLo ∧ decode (.wire .pageColHi 0x10) = .ok .pageColHi := by decide

theorem test_decode_prefixes :
    decode (.wire .first 0x00) = .ok .prefixCmd ∧ decode (.wire .first 0x40) = .ok .prefixData := by decide

/-- R125, R83: no other opcode, no other first byte. -/
theorem test_decode_rejects :
    decode (.wire .command 0xA7) = .error .notAnOpcode ∧ decode (.wire .command 0xC0) = .error .notAnOpcode ∧
      decode (.wire .first 0x80) = .error .notAModePrefix ∧
      decode (.wire .pageColLo 0x10) = .error .notAPageColumnByte := by decide

/-- The opcode table's numbering: `ARG` above `OPW`. -/
theorem test_table_word :
    decodeTableWord 64 0x00003C0100407F11 = some (.init .B 128 64 1 0x3C 0) ∧
      decodeTableWord 8 0xB3 = some (.pageSelect 3) ∧ decodeTableWord 8 0x02 = some .pageColLo ∧
      decodeTableWord 8 0x07 = some (.reservedOp7 0 0) := by decide

/-! ## The well-formedness check refuses an ill-formed term -/

theorem test_wf_init_width :
    (Instr.init .A 0 64 1 0x3C 0).wf = false ∧ (Instr.init .A 257 64 1 0x3C 0).wf = false := by decide

theorem test_wf_render_width :
    (Instr.render 0 64 true).wf = false ∧ (Instr.render 511 64 true).wf = false := by decide

theorem test_wf_reserved_op : (Instr.reservedOp8F 7 0 0).wf = false := by decide

/-! ## One step of each request -/

/-- L2-12, scaled to 4×16: INIT with both answers `ok`. -/
theorem test_init_ready :
    ((next? (step { fresh [.regWrite 0 0x00100311] [.ok, .ok] with arg := 0x00003C01 })).map fun t =>
      (readReg 0x08 t, readReg 0x0C t, readReg 0x10 t, readReg 0x14 t, readReg 0x1C t)) =
      some (0x0A, 0x003C0101, 0x00100004, 2, 1) := by decide

/-- L2-12: INIT whose table write fails leaves the block `CLOSED` with the connection open. -/
theorem test_init_write_fails :
    ((next? (step { fresh [.regWrite 0 0x00100311] [.ok, .fail] with arg := 0x00003C01 })).map fun t =>
      (readReg 0x08 t, readReg 0x1C t)) = some (0x13B, 1) := by decide

/-- L2-11: Variant A with 17 pages is refused. -/
theorem test_init_geometry :
    ((next? (step { fresh [.regWrite 0 0x00887F01] [] with arg := 0x00003C01 })).map fun t =>
      (readReg 0x08 t, t.log)) = some (0x210, []) := by decide

/-- L2-8: WRCMD. -/
theorem test_wrcmd :
    ((next? (step (loaded [.regWrite 0 0x00030002] [.ok]))).map fun t => (readReg 0x08 t, t.log.drop 1)) =
      some (0x0A, [.write [0x00, 0xA7, 0x81, 0x10] .ok]) := by decide

/-- L2-8: WRCMD whose write fails. -/
theorem test_wrcmd_fails :
    ((next? (step (loaded [.regWrite 0 0x00030002] [.fail]))).map fun t => (readReg 0x08 t, t.txCount)) =
      some (0x13A, 1) := by decide

/-- L2-9, L1-4: WRDATA of 33 bytes sends two transactions, of 33 and 2 bytes. -/
theorem test_wrdata :
    ((next? (step { ready .A [.regWrite 0 0x00210003] [.ok, .ok] with
        pbuf := (List.range 33).map fun i => (i, BitVec.ofNat 8 i) })).map fun t =>
      (t.log.drop 2, t.txCount, readReg 0x08 t)) = some ([.write [0x40, 0x20] .ok], 2, 0x0A) := by decide

/-- L2-15: RENDER on Variant A. -/
theorem test_render_a :
    ((next? (step { framed .A [.regWrite 0 0x00080204] [.ok, .ok] with arg := 1 })).map fun t => t.log.drop 1) =
      some [.write [0x00, 0xB0, 0x02, 0x10] .ok, .write [0x40, 0x01, 0x80, 0x00] .ok] := by decide

/-- L2-15: RENDER on Variant B. -/
theorem test_render_b :
    ((next? (step { framed .B [.regWrite 0 0x00080204] [.ok, .ok] with arg := 1 })).map fun t => t.log.drop 1) =
      some [.write [0x00, 0x21, 0x00, 0x02, 0x22, 0x00, 0x00] .ok, .write [0x40, 0x00, 0x80, 0x01] .ok] := by decide

/-- L2-13: CLOSE from `READY`, and its failure. -/
theorem test_close :
    ((next? (step (ready .A [.regWrite 0 5] [.ok]))).map fun t => (readReg 0x08 t, t.log.drop 1)) =
      some (0x003, [.closed .ok]) ∧
    ((next? (step (ready .A [.regWrite 0 5] [.fail]))).map fun t => readReg 0x08 t) = some 0x04B := by decide

/-- L2-13: CLOSE in `UNINIT`. -/
theorem test_close_uninit :
    ((next? (step (fresh [.regWrite 0 5] []))).map fun t => readReg 0x08 t) = some 0x110 := by decide

/-- L2-15, R168: PACK of column 1 of page 0 gives `0x80`. -/
theorem test_pack :
    ((next? (step (framed .A [.regWrite 0 0x00010006] []))).map fun t => (readReg 0x18 t, t.log.drop 1)) =
      some (0x80, []) := by decide

/-- L2-5: PACK at `col = WIDTH`. -/
theorem test_pack_range :
    ((next? (step (framed .A [.regWrite 0 0x00030006] []))).map fun t => readReg 0x08 t) = some 0x51A := by decide

/-- L2-22: a reserved `OP`, the fields not looked at. -/
theorem test_reserved_op :
    ((next? (step (fresh [.regWrite 0 0xF7] []))).map fun t => readReg 0x08 t) = some 0x150 ∧
    ((next? (step (fresh [.regWrite 0 0] []))).map fun t => readReg 0x08 t) = some 0x150 ∧
    ((next? (step (fresh [.regWrite 0 0x0F] []))).map fun t => readReg 0x08 t) = some 0x150 := by decide

/-- L2-23: a nonzero must-be-zero field before the state. -/
theorem test_reserved_field :
    ((next? (step { fresh [.regWrite 0 0x00407F01] [] with arg := 0x00008001 })).map fun t => readReg 0x08 t) =
      some 0x250 := by decide

/-! ## One emission of each kind of row -/

/-- R107: the operand of SET_CONTRAST by variant. -/
theorem test_emit_contrast :
    ((next? (step (ready .A [.emit .command 0x81] []))).map fun t => t.staged.bytes) = some [0x81, 0x7F] ∧
    ((next? (step (ready .B [.emit .command 0x81] []))).map fun t => t.staged.bytes) = some [0x81, 0xCF] := by decide

/-- R121, R122: the ranges of a 3×8 device. -/
theorem test_emit_ranges :
    ((next? (step (ready .B [.emit .command 0x21] []))).map fun t => t.staged.bytes) = some [0x21, 0x00, 0x02] ∧
    ((next? (step (ready .B [.emit .command 0x22] []))).map fun t => t.staged.bytes) = some [0x22, 0x00, 0x00] := by
  decide

/-- R123: page 3. -/
theorem test_emit_page_select :
    ((next? (step (ready .A [.emit .command 0xB3] []))).map fun t => t.staged.bytes) = some [0xB3] := by decide

/-- R126, R127: the init tables with the defaults (L1-9). -/
theorem test_init_tables :
    initTable Opc.defaults .A = [0xAE, 0x20, 0x10, 0xB0, 0xC8, 0x00, 0x10, 0x40, 0x81, 0x7F, 0xA1, 0xA6, 0xA8, 0x3F,
      0xA4, 0xD3, 0x00, 0xD5, 0xF0, 0xD9, 0x22, 0xDA, 0x12, 0xDB, 0x20, 0x8D, 0x14, 0xAF] ∧
    initTable Opc.defaults .B = [0xAE, 0xD5, 0x80, 0xA8, 0x3F, 0xD3, 0x00, 0x40, 0x8D, 0x14, 0x20, 0x00, 0xA1, 0xC8,
      0xDA, 0x12, 0x81, 0xCF, 0xD9, 0xF1, 0xDB, 0x40, 0xA4, 0xA6, 0xAF] := by decide

/-- R168: the corner values of the packing. -/
theorem test_pack_byte :
    packByte [true, false, true, false, true, false, true, false] = 0x55 ∧
      packByte [true, false, false, false, false, false, false, false] = 0x01 ∧
      packByte [false, false, false, false, false, false, false, true] = 0x80 ∧
      packByte [false, false, false, false, true, true, true, true] = 0xF0 := by decide

/-- L2-2: the 9-bit register after the last two pixels of the trace. -/
theorem test_shift_register :
    shift9 [true, false, true, false, true, false, true] = 0x0AA ∧
      shift9 [true, false, true, false, true, false, true, false] = 0x055 := by decide

/-- L2-21: the assembler. -/
theorem test_assemble :
    assemble (.init .A 4 16 1 0x3C (some 1)) = [.regWrite 0x04 0x00013C01, .regWrite 0x00 0x00100301] ∧
      assemble (.wrdatab [0x01, 0x02]) = [.pbufWrite 0 [0x01, 0x02], .regWrite 0x04 0, .regWrite 0x00 0x00020003] := by
  decide

/-! ## Witnesses: for each statement with hypotheses, a state and operands that meet them all -/

theorem witness_DecodeInvertsEncode :
    (Instr.init .A 1 8 0 0 0).wf = true ∧ (Instr.render 256 64 true).wf = true ∧
      (Instr.reservedOp8F 8 0 0).wf = true := by decide

theorem witness_EncodeInvertsDecode :
    decode (.request 0x0800FF11 0x00007FFF) = .ok (.init .B 256 2048 255 0x7F 0) ∧
      decode (.wire .command 0xBF) = .ok (.pageSelect 15) := by decide

theorem witness_ReservedOpIsIllegal :
    (fresh [.regWrite 0x00 0x00000010] []).moves = .regWrite 0x00 0x00000010 :: [] ∧ (0x00000010 : Word).toNat % 16 = 0 ∧
      (fresh [.regWrite 0x00 7] []).moves = .regWrite 0x00 7 :: [] ∧ 7 ≤ (7 : Word).toNat % 16 ∧
      7 ≤ (0x0000000F : Word).toNat % 16 := by decide

/-- One word for each clause, with `OP` at both ends of its range. -/
theorem witness_ReservedFieldIsIllegal :
    ((fresh [.regWrite 0x00 0x21] []).moves = .regWrite 0x00 0x21 :: [] ∧ 1 ≤ (0x21 : Word).toNat % 16 ∧
      (0x21 : Word).toNat % 16 ≤ 6 ∧ (0x21 : Word).toNat / 2 ^ 5 % 2 ^ 3 ≠ 0) ∧
    ((0x16 : Word).toNat % 16 = 6 ∧ (0x16 : Word).toNat / 2 ^ 4 % 2 ≠ 0) ∧
    ((0x102 : Word).toNat % 16 = 2 ∧ (0x102 : Word).toNat / 2 ^ 8 % 2 ^ 8 ≠ 0) ∧
    ((0x10005 : Word).toNat % 16 = 5 ∧ (0x10005 : Word).toNat / 2 ^ 16 ≠ 0) ∧
    ((1 : Word).toNat % 16 = 1 ∧ ({ fresh [.regWrite 0x00 1] [] with arg := 0x8000 }).arg.toNat / 2 ^ 15 % 2 ≠ 0) ∧
    ((4 : Word).toNat % 16 = 4 ∧ ({ fresh [.regWrite 0x00 4] [] with arg := 2 }).arg.toNat / 2 ≠ 0) ∧
    ((3 : Word).toNat % 16 = 3 ∧ ({ fresh [.regWrite 0x00 3] [] with arg := 1 }).arg.toNat ≠ 0) := by decide

/-- A word for each clause, at the ends of the ranges where the clause has one. -/
theorem witness_EveryRequestWordDecodes :
    (0xFFFFFFF0 : Word).toNat % 16 = 0 ∧ (7 : Word).toNat % 16 = 7 ∧
      8 ≤ (8 : Word).toNat % 16 ∧ 8 ≤ (0xF : Word).toNat % 16 ∧
      (1 ≤ (0x21 : Word).toNat % 16 ∧ (0x21 : Word).toNat % 16 ≤ 6 ∧ NonzeroReservedField 0x21 0) ∧
      (1 ≤ (6 : Word).toNat % 16 ∧ (6 : Word).toNat % 16 ≤ 6 ∧ NonzeroReservedField 6 0x80000000) ∧
      (¬ NonzeroReservedField 0xFFFFFF11 0xFFFF7FFF ∧ (0xFFFFFF11 : Word).toNat % 16 = 1) ∧
      (¬ NonzeroReservedField 0xFFFF0002 0 ∧ (0xFFFF0002 : Word).toNat % 16 = 2) ∧
      (¬ NonzeroReservedField 0xFFFF0003 0 ∧ (0xFFFF0003 : Word).toNat % 16 = 3) ∧
      (¬ NonzeroReservedField 0xFFFFFF04 1 ∧ (0xFFFFFF04 : Word).toNat % 16 = 4) ∧
      (¬ NonzeroReservedField 5 0 ∧ (5 : Word).toNat % 16 = 5) ∧
      (¬ NonzeroReservedField 0xFFFFFF06 0 ∧ (0xFFFFFF06 : Word).toNat % 16 = 6) := by
  simp [NonzeroReservedField]

theorem witness_StepRunsTheDecodedInstruction :
    ((fresh [.regWrite 0x00 5] []).moves = .regWrite 0x00 5 :: [] ∧
      decode (.request 5 (fresh [.regWrite 0x00 5] []).arg) = .ok .close) ∧
    ((fresh [.emit .pageColHi 0x10] []).moves = .emit .pageColHi 0x10 :: [] ∧
      decode (.wire .pageColHi 0x10) = .ok .pageColHi) := by decide

theorem witness_FetchWordRunsNext :
    (decodeTableWord 64 5 = some .close ∧ tableCode 64 5 = .request 5 0) ∧
    (decodeTableWord 8 0xAE = some .displayOff ∧ tableCode 8 0xAE = .wire .command 0xAE) := by decide

theorem witness_AssembledRequestRuns :
    (Instr.init .B 256 2048 255 0x7F 65535).wf = true ∧ isRequest (.init .B 256 2048 255 0x7F 65535) = true ∧
      (fresh (assembleRequest (.init .B 256 2048 255 0x7F 65535) ++ [.reset]) []).moves =
        assembleRequest (.init .B 256 2048 255 0x7F 65535) ++ [.reset] := by decide

theorem witness_OnlyRequestsReachTheBus :
    (fresh [] []).moves = [] ∧
      (ready .A [.regWrite 0x04 7] []).moves = .regWrite 0x04 7 :: [] ∧
      step (ready .A [.regWrite 0x04 7] []) = .next { ready .A [] [] with arg := 7 } ∧
      ∀ v, Move.regWrite 0x04 7 ≠ .regWrite 0x00 v :=
  ⟨rfl, rfl, rfl, fun _ h => by cases h⟩

theorem witness_HostReadHasNoSideEffect :
    (fresh [.regRead 0x00] []).moves = .regRead 0x00 :: [] ∧ 0x00 % 4 = 0 ∧
      (fresh [.regRead 0x04] []).moves = .regRead 0x04 :: [] ∧ 0x04 % 4 = 0 ∧
      (fresh [.regRead 0x08] []).moves = .regRead 0x08 :: [] ∧ 0x08 % 4 = 0 ∧
      (fresh [.regRead 0x18] []).moves = .regRead 0x18 :: [] ∧ 0x18 % 4 = 0 ∧
      (fresh [.regRead 0x1C] []).moves = .regRead 0x1C :: [] ∧ 0x1C % 4 = 0 ∧
      (fresh [.regRead 0x20] []).moves = .regRead 0x20 :: [] ∧ 0x20 % 4 = 0 := by decide

theorem witness_HostWriteStoresArgOnly :
    (fresh [.regWrite 0x04 1] []).moves = .regWrite 0x04 1 :: [] ∧
      (fresh [.regWrite 0x08 1] []).moves = .regWrite 0x08 1 :: [] ∧ 0x08 % 4 = 0 ∧
      (fresh [.regWrite 0x20 1] []).moves = .regWrite 0x20 1 :: [] ∧ 0x20 % 4 = 0 := by decide

theorem witness_UnalignedRegisterAccessIsRefused :
    (fresh [.regRead 0x03] []).moves = .regRead 0x03 :: [] ∧ 0x03 % 4 ≠ 0 ∧
      (fresh [.regWrite 0x01 0] []).moves = .regWrite 0x01 0 :: [] ∧ 0x01 % 4 ≠ 0 := by decide

theorem witness_ResetSetsEveryValue : (closedOpen [.reset] [.fail]).moves = .reset :: [] := rfl

theorem witness_HostMemoryWriteIsRead :
    (∃ t, (fresh [.fbWrite 0 true] []).moves = .fbWrite 0 true :: [] ∧ step (fresh [.fbWrite 0 true] []) = .next t) ∧
    (∃ t, (fresh [.pbufWrite 65535 [9]] []).moves = .pbufWrite 65535 [9] :: [] ∧
      step (fresh [.pbufWrite 65535 [9]] []) = .next t) :=
  ⟨⟨_, rfl, rfl⟩, ⟨_, rfl, rfl⟩⟩

theorem witness_HostMemoryReadGivesTheCell :
    ((framed .A [.fbRead 22] []).moves = .fbRead 22 :: [] ∧ Memory.get (framed .A [.fbRead 22] []).fb 22 = some true) ∧
    Memory.get (framed .A [.fbRead 24] []).fb 24 = none ∧
    ((loaded [.pbufRead 2] []).moves = .pbufRead 2 :: [] ∧ Memory.get (loaded [.pbufRead 2] []).pbuf 2 = some 0x10) ∧
    (Memory.get (loaded [.pbufRead 65535] []).pbuf 65535 = none ∧ 65535 < 65536) := by decide

theorem witness_CanvasActionsWriteFb :
    (ready .A [.fbClear] []).moves = .fbClear :: [] ∧ (ready .A [.fbSet 2 7] []).moves = .fbSet 2 7 :: [] := by decide

/-- A request and an emission that go on, for the statements about every instruction's next state. -/
theorem witness_BlockNeverWritesItsInputs :
    (∃ t, exec .close (ready .A [] [.ok]) = .next t) ∧ ∃ t, exec (.pageSelect 15) (ready .A [] []) = .next t :=
  ⟨⟨_, rfl⟩, ⟨_, rfl⟩⟩

/-- Only the cell just beyond a 3×8 frame differs. -/
theorem witness_CellsBeyondTheFrameAreNeverRead :
    ∀ a, a < (framed .A [] []).width.toNat * 8 * (framed .A [] []).pages.toNat →
      Memory.get (Memory.set fb3x8 24 true) a = Memory.get (framed .A [] []).fb a := by
  intro a ha
  have : a < 24 := ha
  show _ = Memory.get fb3x8 a
  rw [Memory.get_set, if_neg (by omega)]

theorem witness_ChunksSplitTheSequence : 0 < (chunks 32 [(1 : Byte)]).length := by decide

/-- Variant A with 16 pages and one extra transaction. -/
theorem witness_InitReachesReady :
    ({ loaded [] [.ok, .ok, .ok] with life := .uninit }).life = .uninit ∧ PagesLegal .A 135 ∧ PagesLegal .B 2055 ∧
      PagesLegal .A 8 ∧ ([0xA7, 0x81, 0x10] : List Byte).length = (3 : BitVec 16).toNat ∧
      PbufHolds { loaded [] [.ok, .ok, .ok] with life := .uninit } [0xA7, 0x81, 0x10] ∧
      ({ loaded [] [.ok, .ok, .ok] with life := .uninit }).draws =
        List.replicate (2 + ((3 : BitVec 16).toNat + 31) / 32) .ok ++ [] := by
  refine ⟨rfl, ⟨by decide, by decide⟩, ⟨by decide, by decide⟩, ⟨by decide, by decide⟩, rfl, ?_, rfl⟩
  intro k hk
  have : k < 3 := hk
  interval_cases k <;> rfl

/-- No extra byte, and the open failing. -/
theorem witness_InitOpenFailureReturnsToUninit :
    (fresh [] [.fail]).life = .uninit ∧ PagesLegal .B 8 ∧ ([] : List Byte).length = (0 : BitVec 16).toNat ∧
      PbufHolds (fresh [] [.fail]) [] ∧ (fresh [] [.fail]).draws = .fail :: [] :=
  ⟨rfl, ⟨by decide, by decide⟩, rfl, fun _ h => (by cases h), rfl⟩

/-- The second of two transactions failing. -/
theorem witness_InitWriteFailureCloses :
    1 < ((0x00 :: initTable Config.opc .A) :: transactions 0x00 [0xA7, 0x81, 0x10]).length ∧
      ({ loaded [] [.ok, .ok, .fail] with life := .uninit }).life = .uninit ∧ PagesLegal .A 8 ∧
      ([0xA7, 0x81, 0x10] : List Byte).length = (3 : BitVec 16).toNat ∧
      PbufHolds { loaded [] [.ok, .ok, .fail] with life := .uninit } [0xA7, 0x81, 0x10] ∧
      ({ loaded [] [.ok, .ok, .fail] with life := .uninit }).draws = .ok :: (List.replicate 1 .ok ++ .fail :: []) := by
  refine ⟨by decide, rfl, ⟨by decide, by decide⟩, rfl, ?_, rfl⟩
  intro k hk
  have : k < 3 := hk
  interval_cases k <;> rfl

theorem witness_InitRefusesIllegalGeometry :
    State.reset.life = .uninit ∧ (7 : BitVec 16).toNat / 8 = 0 ∧ 16 < (136 : BitVec 16).toNat / 8 ∧
      256 < (2056 : BitVec 16).toNat / 8 := by decide

/-- The bytes of `loaded`, as statements about PBUF take them. -/
theorem loaded_holds (ms : List Move) (rs : List Answer) : PbufHolds (loaded ms rs) [0xA7, 0x81, 0x10] := by
  intro k hk
  have : k < 3 := hk
  interval_cases k <;> rfl

theorem witness_WriteRequestsSendTheSequence :
    (loaded [] [.ok]).life = .ready ∧ ([0xA7, 0x81, 0x10] : List Byte).length = (3 : BitVec 16).toNat ∧
      PbufHolds (loaded [] [.ok]) [0xA7, 0x81, 0x10] ∧
      (loaded [] [.ok]).draws = List.replicate (((3 : BitVec 16).toNat + 31) / 32) .ok ++ [] :=
  ⟨rfl, rfl, loaded_holds _ _, rfl⟩

theorem witness_WriteRequestsStopAtTheFirstFailure :
    (loaded [] [.fail]).life = .ready ∧ ([0xA7, 0x81, 0x10] : List Byte).length = (3 : BitVec 16).toNat ∧
      PbufHolds (loaded [] [.fail]) [0xA7, 0x81, 0x10] ∧
      (loaded [] [.fail]).draws = List.replicate 0 .ok ++ .fail :: [] ∧
      0 < (transactions 0x00 [0xA7, 0x81, 0x10]).length ∧ 0 < (transactions 0x40 [0xA7, 0x81, 0x10]).length :=
  ⟨rfl, rfl, loaded_holds _ _, rfl, by decide, by decide⟩

theorem witness_CloseReleasesTheConnection :
    ({ closedOpen [] [] with handleOpen := false }).life = .closed ∧
      ((ready .A [] [.ok]).life = .ready ∧ (ready .A [] [.ok]).handleOpen = true ∧
        (ready .A [] [.ok]).draws = .ok :: []) ∧
      ((closedOpen [] [.fail]).life = .closed ∧ (closedOpen [] [.fail]).handleOpen = true ∧
        (closedOpen [] [.fail]).draws = .fail :: []) := by decide

theorem witness_RequestsOutsideTheirStateAreRefused :
    (closedOpen [] []).life ≠ .uninit ∧ State.reset.life = .uninit ∧ (closedOpen [] []).life ≠ .ready := by decide

/-- A column that is read, and the eight cells of it written. -/
theorem witness_UnpackingRecoversThePixels :
    packColumn fb3x8 3 1 0 = .ok 0x80 ∧ ∀ n : Fin 8, (Memory.get fb3x8 ((8 * 0 + n.val) * 3 + 1)).isSome = true := by
  decide

theorem witness_PackingIsABijection :
    (List.replicate 8 true).length = 8 ∧ packByte (List.replicate 8 true) = packByte (List.replicate 8 true) := by decide

/-- The cells of the 3×8 frame, as statements about FB take them. -/
theorem framed_written (var : Variant) (ms : List Move) (rs : List Answer) : FrameWritten (framed var ms rs) := by
  intro x y hx hy
  have hx : x < 3 := hx
  have hy : y < 8 := hy
  have h : ∀ x : Fin 3, ∀ y : Fin 8, (Memory.get fb3x8 (y.val * 3 + x.val)).isSome = true := by decide
  exact h ⟨x, hx⟩ ⟨y, hy⟩

/-- The last column of the last page. -/
theorem witness_PackReadsOneColumn :
    (framed .A [] []).life = .ready ∧ (2 : BitVec 16).toNat < (framed .A [] []).width.toNat ∧
      (0 : BitVec 8).toNat < (framed .A [] []).pages.toNat ∧
      ∀ n, n < 8 → PixelWritten (framed .A [] []) 2 (8 * 0 + n) :=
  ⟨rfl, by decide, by decide, fun n hn => framed_written .A [] [] 2 _ (by decide) (by
    show 8 * 0 + n < 8 * 1
    omega)⟩

theorem witness_PackRefusesOutOfRange :
    (framed .A [] []).life = .ready ∧ (framed .A [] []).width.toNat ≤ (3 : BitVec 16).toNat ∧
      (framed .A [] []).pages.toNat ≤ (1 : BitVec 8).toNat := by decide

theorem framed_geometry (var : Variant) (ms : List Move) (rs : List Answer) : GeometryLegal (framed var ms rs) := by
  have h : ∀ a b : Nat, Nat.ble a b = true → a ≤ b := fun _ _ => Nat.le_of_ble_eq_true
  cases var <;> exact ⟨⟨h _ _ rfl, h _ _ rfl⟩,
    (show (1 : BitVec 16).toNat = (8 : BitVec 16).toNat / 8 by decide), h _ _ rfl, h _ _ rfl⟩

theorem witness_RenderASendsTheFrame :
    (framed .A [] [.ok, .ok]).life = .ready ∧ (framed .A [] [.ok, .ok]).variant = .A ∧
      (3 : BitVec 9).toNat = (framed .A [] [.ok, .ok]).width.toNat ∧ FrameWritten (framed .A [] [.ok, .ok]) ∧
      (framed .A [] [.ok, .ok]).draws = List.replicate ((framed .A [] [.ok, .ok]).pages.toNat *
        (1 + ((framed .A [] [.ok, .ok]).width.toNat + 31) / 32)) .ok ++ [] :=
  ⟨rfl, rfl, rfl, framed_written _ _ _, rfl⟩

theorem witness_RenderBSendsTheFrame :
    (framed .B [] [.ok, .ok]).life = .ready ∧ (framed .B [] [.ok, .ok]).variant = .B ∧
      (3 : BitVec 9).toNat = (framed .B [] [.ok, .ok]).width.toNat ∧ FrameWritten (framed .B [] [.ok, .ok]) ∧
      GeometryLegal (framed .B [] [.ok, .ok]) ∧
      (framed .B [] [.ok, .ok]).draws = List.replicate (1 + ((framed .B [] [.ok, .ok]).width.toNat *
        (framed .B [] [.ok, .ok]).pages.toNat + 31) / 32) .ok ++ [] :=
  ⟨rfl, rfl, rfl, framed_written _ _ _, framed_geometry _ _ _, rfl⟩

/-- The second of two transactions failing, a data transaction, and the first, a command transaction. -/
theorem witness_RenderStopsAtTheFirstFailure :
    1 < (frameTransactions (framed .A [] [.ok, .fail])).length ∧ (framed .A [] [.ok, .fail]).life = .ready ∧
      (3 : BitVec 9).toNat = (framed .A [] [.ok, .fail]).width.toNat ∧ FrameWritten (framed .A [] [.ok, .fail]) ∧
      GeometryLegal (framed .A [] [.ok, .fail]) ∧
      (framed .A [] [.ok, .fail]).draws = List.replicate 1 .ok ++ .fail :: [] ∧
      (framed .B [] [.fail]).draws = List.replicate 0 .ok ++ .fail :: [] :=
  ⟨by decide, rfl, rfl, framed_written _ _ _, framed_geometry _ _ _, rfl, rfl⟩

theorem witness_RenderChecksModeThenSize :
    (framed .A [] []).life = .ready ∧ (4 : BitVec 9).toNat ≠ (framed .A [] []).width.toNat ∧
      (9 : BitVec 16) ≠ (framed .A [] []).height := by decide

theorem witness_RenderReadsExactlyTheFrame :
    (framed .A [] []).life = .ready ∧ (3 : BitVec 9).toNat = (framed .A [] []).width.toNat := by decide

theorem witness_VariantsMirrorEachPage :
    frameDataA fb3x8 3 1 = .ok [[0x01, 0x80, 0x00]] ∧ frameDataB fb3x8 3 1 = .ok [0x00, 0x80, 0x01] ∧ 0 < 1 ∧ 2 < 3 := by
  decide

theorem witness_VariantBBufferInClosedForm :
    frameDataB fb3x8 3 1 = .ok [0x00, 0x80, 0x01] ∧ 2 < ([0x00, 0x80, 0x01] : List Byte).length := by decide

theorem witness_RangeOpcodesEmitTheirBytes :
    (1 ≤ ({ ready .B [] [] with width := 256 }).width.toNat ∧ ({ ready .B [] [] with width := 256 }).width.toNat ≤ 256) ∧
      (1 ≤ (ready .B [] []).pages.toNat ∧ (ready .B [] []).pages.toNat ≤ 256) := by decide

/-- Each clause: an unwritten byte of PBUF, an unwritten pixel of a column, an unwritten frame. -/
theorem witness_UnwrittenInputsFault :
    ((loaded [] []).life = .ready ∧ 3 < (4 : BitVec 16).toNat ∧ Memory.get (loaded [] []).pbuf 3 = none) ∧
    (State.reset.life = .uninit ∧ PagesLegal .A 8 ∧ 0 < (1 : BitVec 16).toNat ∧
      Memory.get State.reset.pbuf 0 = none) ∧
    ((ready .A [] []).life = .ready ∧ (2 : BitVec 16).toNat < (ready .A [] []).width.toNat ∧
      (0 : BitVec 8).toNat < (ready .A [] []).pages.toNat ∧ ¬ PixelWritten (ready .A [] []) 2 (8 * 0 + 7)) ∧
    ((3 : BitVec 9).toNat = (ready .A [] []).width.toNat ∧ ¬ FrameWritten (ready .A [] [])) := by
  have hp : ∀ x y, ¬ PixelWritten (ready .A [] []) x y := fun _ _ h => by cases h
  exact ⟨⟨rfl, by decide, rfl⟩, ⟨rfl, ⟨by decide, by decide⟩, by decide, rfl⟩,
    ⟨rfl, by decide, by decide, hp _ _⟩, ⟨rfl, fun h => hp 0 0 (h 0 0 (by decide) (by decide))⟩⟩

theorem witness_AcceptedRequestsEndWhateverTheTransportAnswers :
    ([0xA7, 0x81, 0x10] : List Byte).length = (3 : BitVec 16).toNat ∧ PbufHolds (loaded [] []) [0xA7, 0x81, 0x10] ∧
      (loaded [] []).life = .ready ∧ PbufHolds (fresh [] []) [] ∧ (fresh [] []).life = .uninit ∧ PagesLegal .A 8 :=
  ⟨rfl, loaded_holds _ _, rfl, fun _ h => (by cases h), rfl, ⟨by decide, by decide⟩⟩

theorem witness_LogGrowsByValidTransactions :
    ∃ t, exec (.wrcmd 3) (loaded [] [.ok]) = .next t := ⟨_, rfl⟩

theorem witness_FirstFailureEndsTheRequest :
    isRequest .close = true ∧ ∃ t, exec .close (ready .A [] [.fail]) = .next t ∧ t.result = 4 :=
  ⟨rfl, _, rfl, rfl⟩

/-- A precondition error and an illegal encoding. -/
theorem witness_PreconditionErrorsTouchNoBus :
    (isRequest (.wrcmd 3) = true ∧ ∃ t, exec (.wrcmd 3) State.reset = .next t ∧ t.result = 1) ∧
      (isRequest (.reservedOp7 0 0) = true ∧ ∃ t, exec (.reservedOp7 0 0) State.reset = .next t ∧ t.result = 5) :=
  ⟨⟨rfl, _, rfl, rfl⟩, ⟨rfl, _, rfl, rfl⟩⟩

theorem witness_TxCountCountsTheWrites :
    isRequest (.wrcmd 3) = true ∧ ∃ t, exec (.wrcmd 3) (loaded [] [.ok]) = .next t := ⟨rfl, _, rfl⟩

theorem witness_ResultsDoNotInfluenceRequests :
    isRequest (.wrdata 3) = true ∧ ∃ t, exec (.wrdata 3) (loaded [] [.fail]) = .next t := ⟨rfl, _, rfl⟩

/-- Both clauses: a request in `CLOSED`, and an INIT that ends `READY`. -/
theorem witness_OnlyInitReachesReady :
    (∃ t, exec (.render 3 8 true) (closedOpen [] []) = .next t ∧ (closedOpen [] []).life = .closed) ∧
      ∃ t, exec (.init .A 4 16 1 0x3C 0) (fresh [] [.ok, .ok]) = .next t ∧ t.life = .ready :=
  ⟨⟨_, rfl, rfl⟩, ⟨_, rfl, rfl⟩⟩

theorem witness_RegistersHaveTheirOneWriter :
    (∃ t, exec (.pack 2 0) (framed .A [] []) = .next t) ∧ ∃ t, exec .close (ready .A [] [.ok]) = .next t :=
  ⟨⟨_, rfl⟩, ⟨_, rfl⟩⟩

/-- A `READY` state in the middle of a run, about to run a request. -/
theorem witness_EveryStepKeepsTheInvariant :
    Inv (ready .A [.regWrite 0x00 5] [.ok]) ∧ ∃ t, step (ready .A [.regWrite 0x00 5] [.ok]) = .next t := by
  refine ⟨?_, _, rfl⟩
  exact {
    fbWf := by decide
    pbufWf := by decide
    pbufBound := fun _ h => by cases h
    notFaulted := rfl
    notInitializing := by decide
    readyOpen := fun _ => rfl
    uninitClosed := fun h => by cases h
    report := by decide
    txBound := by decide
    geometry := .inl ⟨⟨by decide, by decide⟩, by decide, by decide, by decide⟩
    uninitLog := fun h => by cases h
    connectedLog := fun _ => by decide
    handle := by decide
    logValid := by decide }

end Sys2Proof.Tests
end

section
/-! The memories as the block sees them, and chunking (20_memory.md R42, R51): O19 and O21. -/

namespace Sys2Proof.Machine

/-! ## The block's inputs are only read -/

/-- The four inputs that only the host writes are as before: FB and PBUF (20_memory.md R42), `OPW` and `ARG`
(10_state.md R28). -/
def KeepsInputs (s t : State) : Prop :=
  t.fb = s.fb ∧ t.pbuf = s.pbuf ∧ t.opw = s.opw ∧ t.arg = s.arg

/-- The end of a request that sent transactions keeps every input, whichever way the sending ended. -/
theorem endSend_keepsInputs (r : Answer) (t : State) : KeepsInputs t (endSend (r, t)) := by
  cases r with
  | ok => exact ⟨rfl, rfl, rfl, rfl⟩
  | fail => exact ⟨rfl, rfl, rfl, rfl⟩

/-- A request keeps its inputs: outside its sending, each case is a chain of register updates, bus events and the start
and end of the request, and none of these writes an input. -/
theorem RequestCase.keepsInputs {i : Instr} {s t : State} (h : RequestCase i s t) : KeepsInputs s t := by
  cases h with
  | send ts r es d f _ _ => exact endSend_keepsInputs r (afterEvents es.length es d f (beginRequest s))
  | away | pack | openFailed | initFailed | initDone | closeIdle | closeFailed | closeDone =>
    exact ⟨rfl, rfl, rfl, rfl⟩

/-- Settles O19, by the cases of a request; a row of the wire vocabulary changes only what is staged. -/
theorem blockNeverWritesItsInputs : Obligations.BlockNeverWritesItsInputs := by
  intro i s t h
  cases hi : isRequest i with
  | true => exact (request_cases hi h).keepsInputs
  | false =>
    obtain ⟨g, hg⟩ := wire_cases hi s
    obtain rfl : { s with staged := g } = t := Host.Outcome.next.inj (hg.symm.trans h)
    exact ⟨rfl, rfl, rfl, rfl⟩

/-! ## Chunks -/

/-- The number of chunks. -/
@[simp] theorem chunks_length (n : Nat) (seq : List Byte) : (chunks n seq).length = ceilDiv seq.length n := by
  simp [chunks]

/-- Chunk `k` starts at byte `n * k`. -/
@[simp] theorem chunks_getElem (n : Nat) (seq : List Byte) (k : Nat) (h : k < (chunks n seq).length) :
    (chunks n seq)[k] = (seq.drop (n * k)).take n := by
  simp [chunks]

/-- The first `m` slices of length `n`, joined, are the first `n * m` bytes. -/
theorem flatten_slices (n : Nat) (seq : List Byte) (m : Nat) :
    ((List.range m).map fun k => (seq.drop (n * k)).take n).flatten = seq.take (n * m) := by
  induction m with
  | zero => simp
  | succ m ih => simp [List.range_succ, ih, Nat.mul_succ, List.take_add]

/-- Whole chunks of `n` bytes, as many as there are chunks, cover the sequence. -/
theorem length_le_mul_ceilDiv (l : Nat) {n : Nat} (hn : 0 < n) : l ≤ n * ceilDiv l n := by
  rw [ceilDiv, ← Nat.ceilDiv_eq_add_pred_div]
  exact le_smul_ceilDiv hn

/-- The chunks, joined in order, are the sequence. -/
theorem chunks_flatten {n : Nat} (hn : 0 < n) (seq : List Byte) : (chunks n seq).flatten = seq := by
  rw [chunks, flatten_slices, List.take_of_length_le (length_le_mul_ceilDiv _ hn)]

/-- Settles O21: the sizes follow from where each chunk starts, by arithmetic. -/
theorem chunksSplitTheSequence : Obligations.ChunksSplitTheSequence := by
  intro seq
  have hlen : (chunks 32 seq).length = (seq.length + 31) / 32 := chunks_length 32 seq
  refine ⟨hlen, chunks_flatten (by decide) seq, fun k h => ?_⟩
  have hsize : (chunks 32 seq)[k].length = min 32 (seq.length - 32 * k) := by simp
  rw [hlen] at h
  rw [hsize, hlen]
  split <;> omega

end Sys2Proof.Machine
end

section
/-! Unpacking a column's byte by bit position (42_bit_unpacker.md R161, R165): O32. -/

namespace Sys2Proof.Machine

/-! ## A packed column, bit by bit -/

/-- Bit `n` of the packed byte is pixel `n`, and 0 past the last pixel. -/
theorem packByte_getLsbD {px : List Pixel} {n : Nat} (hn : n < 8) :
    (packByte px).getLsbD n = (px[n]?).getD false := by
  rw [packByte, BitVec.getLsbD_ofNat, packBits_testBit, decide_eq_true hn, Bool.true_and]

/-- A column's byte is the packing of its eight pixels, each read from its cell. -/
theorem packColumn_eq_ok {fb : List (Nat × Pixel)} {w x p : Nat} {b : Byte} :
    packColumn fb w x p = .ok b ↔ ∃ px, readAll (readCell fb) (columnCells w x p) = .ok px ∧ packByte px = b := by
  unfold packColumn
  cases readAll (readCell fb) (columnCells w x p) <;> simp

/-- A column that is read gives eight pixels. -/
theorem readColumn_length {fb : List (Nat × Pixel)} {w x p : Nat} {px : List Pixel}
    (h : readAll (readCell fb) (columnCells w x p) = .ok px) : px.length = 8 := by
  simpa [columnCells] using readAll_length h

/-- Element `n` of the pixels read from a column is what the column's cell `n` holds. -/
theorem readColumn_getElem? {fb : List (Nat × Pixel)} {w x p n : Nat} {px : List Pixel}
    (h : readAll (readCell fb) (columnCells w x p) = .ok px) (hn : n < 8) :
    Memory.get fb ((8 * p + n) * w + x) = px[n]? := by
  have hlen : px.length = 8 := readColumn_length h
  have hcell : ((columnCells w x p).map (readCell fb))[n]? = (px.map Except.ok)[n]? := by rw [readAll_eq_ok.mp h]
  have hread : readCell fb ((8 * p + n) * w + x) = .ok px[n] := by simpa [columnCells, fbIndex, hlen, hn] using hcell
  rw [readCell_eq_ok.mp hread, List.getElem?_eq_getElem]

/-- Bit `n` of a column's byte is the pixel in row `n` of its page. -/
theorem packColumn_getLsbD {fb : List (Nat × Pixel)} {w x p n : Nat} {b : Byte} (h : packColumn fb w x p = .ok b)
    (hn : n < 8) : Memory.get fb ((8 * p + n) * w + x) = some (b.getLsbD n) := by
  obtain ⟨px, hread, rfl⟩ := packColumn_eq_ok.mp h
  have hlen : px.length = 8 := readColumn_length hread
  rw [readColumn_getElem? hread hn, packByte_getLsbD hn, List.getElem?_eq_getElem (by omega), Option.getD_some]

/-- A column is read exactly if its eight cells are written: a failed read would name an unwritten one. -/
theorem packColumn_ok_iff {fb : List (Nat × Pixel)} {w x p : Nat} :
    (∃ b, packColumn fb w x p = .ok b) ↔ ∀ n, n < 8 → (Memory.get fb ((8 * p + n) * w + x)).isSome = true := by
  constructor
  · rintro ⟨b, h⟩ n hn
    rw [packColumn_getLsbD h hn, Option.isSome_some]
  · intro hwritten
    cases h : packColumn fb w x p with
    | ok b => exact ⟨b, rfl⟩
    | error e =>
      obtain ⟨n, hn, rfl, hnone⟩ := packColumn_error h
      exact absurd (hwritten n hn) (by simp [hnone])

/-! ## A word as the sum of its bits -/

/-- The lowest `k` bits, each with its weight, sum to the remainder modulo `2 ^ k`. -/
theorem sum_testBit_eq_mod (m k : Nat) :
    ((List.range k).map fun n => (m.testBit n).toNat * 2 ^ n).sum = m % 2 ^ k := by
  induction k with
  | zero => simp [Nat.mod_one]
  | succ k ih =>
    rw [List.range_succ, List.map_append, List.sum_append, ih, Nat.mod_pow_succ, ← Nat.toNat_testBit]
    simp [Nat.mul_comm]

/-- A word is the sum of its bits, each with its weight. -/
theorem toNat_eq_sum_getLsbD {k : Nat} (b : BitVec k) :
    b.toNat = ((List.range k).map fun n => (b.getLsbD n).toNat * 2 ^ n).sum :=
  (Nat.mod_eq_of_lt b.isLt).symm.trans (sum_testBit_eq_mod b.toNat k).symm

/-- Settles O32, from the pixels that the column's read gives and the bits of their packing. -/
theorem unpackingRecoversThePixels : Obligations.UnpackingRecoversThePixels := by
  intro fb width x p
  exact ⟨packColumn_ok_iff, fun b h => ⟨fun _ hn => packColumn_getLsbD h hn, toNat_eq_sum_getLsbD b⟩⟩

end Sys2Proof.Machine
end

section
/-! Decoding and encoding (30_encoding.md R72 to R82): O1, O2, O3 and O4. -/

namespace Sys2Proof

/-! ## What the words of each `OP` decode to -/

section
variable {opw arg : Word}

theorem decodeRequest_reservedOp0 (h : opField opw = 0x0#4) :
    decodeRequest opw arg = .ok (.reservedOp0 (hiField opw) arg) := by
  simp [decodeRequest, h]

theorem decodeRequest_reservedOp7 (h : opField opw = 0x7#4) :
    decodeRequest opw arg = .ok (.reservedOp7 (hiField opw) arg) := by
  simp [decodeRequest, h]

theorem decodeRequest_reservedOp8F (h : 8 ≤ (opField opw).toNat) :
    decodeRequest opw arg = .ok (.reservedOp8F (opField opw) (hiField opw) arg) := by
  have h0 : opField opw ≠ 0x0#4 := by bv_omega
  have h7 : opField opw ≠ 0x7#4 := by bv_omega
  simp [decodeRequest, h0, h7, h]

theorem decodeRequest_reservedField (h1 : 1 ≤ (opField opw).toNat) (h6 : (opField opw).toNat ≤ 6)
    (hz : mustBeZeroOk opw arg = false) : decodeRequest opw arg = .error .reservedField := by
  have h0 : opField opw ≠ 0x0#4 := by bv_omega
  have h7 : opField opw ≠ 0x7#4 := by bv_omega
  have h8 : ¬ 8 ≤ (opField opw).toNat := by omega
  simp [decodeRequest, h0, h7, h8, hz]

theorem decodeRequest_init (h : opField opw = 0x1#4) (hz : mustBeZeroOk opw arg = true) :
    decodeRequest opw arg =
      .ok (.init (variantOfBit (varField opw)) (widthOfField (a8Field opw)) (a16Field opw)
        (busField arg) (addrField arg) (nextraField arg)) := by
  simp [decodeRequest, h, hz]

theorem decodeRequest_wrcmd (h : opField opw = 0x2#4) (hz : mustBeZeroOk opw arg = true) :
    decodeRequest opw arg = .ok (.wrcmd (a16Field opw)) := by
  simp [decodeRequest, h, hz]

theorem decodeRequest_wrdata (h : opField opw = 0x3#4) (hz : mustBeZeroOk opw arg = true) :
    decodeRequest opw arg = .ok (.wrdata (a16Field opw)) := by
  simp [decodeRequest, h, hz]

theorem decodeRequest_render (h : opField opw = 0x4#4) (hz : mustBeZeroOk opw arg = true) :
    decodeRequest opw arg =
      .ok (.render (widthOfField (a8Field opw)) (a16Field opw) (mode1Field arg = 1#1)) := by
  simp [decodeRequest, h, hz]

theorem decodeRequest_close (h : opField opw = 0x5#4) (hz : mustBeZeroOk opw arg = true) :
    decodeRequest opw arg = .ok .close := by
  simp [decodeRequest, h, hz]

theorem decodeRequest_pack (h : opField opw = 0x6#4) (hz : mustBeZeroOk opw arg = true) :
    decodeRequest opw arg = .ok (.pack (a16Field opw) (a8Field opw)) := by
  simp [decodeRequest, h, hz]

/-- The check of the must-be-zero fields fails exactly if one of R73's fields for that `OP` is nonzero. -/
theorem mustBeZeroOk_eq_false_iff (h1 : 1 ≤ opw.toNat % 16) (h6 : opw.toNat % 16 ≤ 6) :
    mustBeZeroOk opw arg = false ↔ Machine.NonzeroReservedField opw arg := by
  simp only [mustBeZeroOk, Machine.NonzeroReservedField, ← BitVec.toNat_inj, opField_toNat, varField_toNat,
    rsvField_toNat, a8Field_toNat, a16Field_toNat, arg15Field_toNat, argHiField_toNat, BitVec.toNat_ofNat]
  generalize hop : opw.toNat % 16 = op at *
  interval_cases op <;> simp <;> omega

/-- A legal `OP` is that of one of the six requests (R74). -/
theorem legalOp_cases (h1 : 1 ≤ (opField opw).toNat) (h6 : (opField opw).toNat ≤ 6) :
    opField opw = 0x1#4 ∨ opField opw = 0x2#4 ∨ opField opw = 0x3#4 ∨ opField opw = 0x4#4 ∨ opField opw = 0x5#4 ∨
      opField opw = 0x6#4 := by
  bv_omega

/-- An `OP` that is not legal is that of one of the three reserved rows (R81 (a)). -/
theorem reservedOp_cases (h : ¬ (1 ≤ (opField opw).toNat ∧ (opField opw).toNat ≤ 6)) :
    opField opw = 0x0#4 ∨ opField opw = 0x7#4 ∨ 8 ≤ (opField opw).toNat := by
  bv_omega

end

/-! ## Decoding an encoding -/

theorem decode_encode_init {var : Variant} {width : BitVec 9} {height : BitVec 16} {bus : BitVec 8} {addr : BitVec 7}
    {nextra : BitVec 16} (h : widthEncodable width = true) :
    decode (encode (.init var width height bus addr nextra)) = .ok (.init var width height bus addr nextra) := by
  rw [encode, decode, decodeRequest_init (by simp) (by simp [mustBeZeroOk])]
  simp [widthOfField_fieldOfWidth h]

theorem decode_encode_render {fbw : BitVec 9} {fbh : BitVec 16} {mode1 : Bool} (h : widthEncodable fbw = true) :
    decode (encode (.render fbw fbh mode1)) = .ok (.render fbw fbh mode1) := by
  have hm : decide (mode1Field (0#31 ++ BitVec.ofBool mode1) = 1#1) = mode1 := by cases mode1 <;> rfl
  rw [encode, decode, decodeRequest_render (by simp) (by simp [mustBeZeroOk]), hm]
  simp [widthOfField_fieldOfWidth h]

/-- Settles O1: the fields of an assembled word are the operands it was assembled from; a wire byte is one of a finite
table. -/
theorem decodeInvertsEncode : Obligations.DecodeInvertsEncode := by
  intro i hwf
  cases i
  case init => exact decode_encode_init hwf
  case render => exact decode_encode_render hwf
  case wrcmd => rw [encode, decode, decodeRequest_wrcmd (by simp) (by simp [mustBeZeroOk]), a16Field_append]
  case wrdata => rw [encode, decode, decodeRequest_wrdata (by simp) (by simp [mustBeZeroOk]), a16Field_append]
  case pack =>
    rw [encode, decode, decodeRequest_pack (by simp) (by simp [mustBeZeroOk]), a16Field_append, a8Field_append]
  case reservedOp0 => rw [encode, decode, decodeRequest_reservedOp0 (by simp), hiField_reserved]
  case reservedOp7 => rw [encode, decode, decodeRequest_reservedOp7 (by simp), hiField_reserved]
  case reservedOp8F op hi arg =>
    have h8 : 8 ≤ op.toNat := by simpa [Instr.wf, opInUpperHalf] using hwf
    rw [encode, decode, decodeRequest_reservedOp8F (by simpa), opField_reserved, hiField_reserved]
  case pageSelect p => revert p; decide
  all_goals decide

/-! ## Encoding what was decoded -/

/-- Words of a legal `OP` that decode to a request have passed the check of the must-be-zero fields. -/
theorem mustBeZeroOk_of_decodeRequest {opw arg : Word} {i : Instr} (h1 : 1 ≤ (opField opw).toNat)
    (h6 : (opField opw).toNat ≤ 6) (h : decodeRequest opw arg = .ok i) : mustBeZeroOk opw arg = true := by
  cases hz : mustBeZeroOk opw arg with
  | true => rfl
  | false => rw [decodeRequest_reservedField h1 h6 hz] at h; cases h

/-- The words that decode to a request of a legal `OP` are those it is encoded by: the fields that the encoder writes as
zero were checked to be zero. -/
theorem encode_of_decodeRequest_legal {opw arg : Word} {i : Instr} (h1 : 1 ≤ (opField opw).toNat)
    (h6 : (opField opw).toNat ≤ 6) (h : decodeRequest opw arg = .ok i) :
    i.wf = true ∧ encode i = .request opw arg := by
  have hz := mustBeZeroOk_of_decodeRequest h1 h6 h
  have hword := opw_eta opw
  rcases legalOp_cases h1 h6 with hop | hop | hop | hop | hop | hop
  · rw [decodeRequest_init hop hz] at h
    cases h
    obtain ⟨hrsv, harg⟩ : rsvField opw = 0#3 ∧ arg15Field arg = 0#1 := by simpa [mustBeZeroOk, hop] using hz
    have hargs := arg_eta arg
    rw [hop, hrsv] at hword
    rw [harg] at hargs
    exact ⟨widthOfField_encodable _, by rw [encode, fieldOfWidth_widthOfField, bit_variantOfBit, hword, hargs]⟩
  · rw [decodeRequest_wrcmd hop hz] at h
    cases h
    obtain ⟨hrsv, ⟨hvar, ha8⟩, rfl⟩ : rsvField opw = 0#3 ∧ (varField opw = 0#1 ∧ a8Field opw = 0#8) ∧ arg = 0#32 := by
      simpa [mustBeZeroOk, hop] using hz
    rw [hop, hrsv, hvar, ha8] at hword
    exact ⟨rfl, by rw [encode, hword]⟩
  · rw [decodeRequest_wrdata hop hz] at h
    cases h
    obtain ⟨hrsv, ⟨hvar, ha8⟩, rfl⟩ : rsvField opw = 0#3 ∧ (varField opw = 0#1 ∧ a8Field opw = 0#8) ∧ arg = 0#32 := by
      simpa [mustBeZeroOk, hop] using hz
    rw [hop, hrsv, hvar, ha8] at hword
    exact ⟨rfl, by rw [encode, hword]⟩
  · rw [decodeRequest_render hop hz] at h
    cases h
    obtain ⟨hrsv, hvar, harg⟩ : rsvField opw = 0#3 ∧ varField opw = 0#1 ∧ argHiField arg = 0#31 := by
      simpa [mustBeZeroOk, hop] using hz
    have hmode : BitVec.ofBool (decide (mode1Field arg = 1#1)) = mode1Field arg := by
      generalize mode1Field arg = m
      revert m
      decide
    rw [hop, hrsv, hvar] at hword
    exact ⟨widthOfField_encodable _,
      by rw [encode, fieldOfWidth_widthOfField, hword, hmode, renderArg_eta harg]⟩
  · rw [decodeRequest_close hop hz] at h
    cases h
    obtain ⟨hrsv, ⟨⟨hvar, ha8⟩, ha16⟩, rfl⟩ :
        rsvField opw = 0#3 ∧ ((varField opw = 0#1 ∧ a8Field opw = 0#8) ∧ a16Field opw = 0#16) ∧ arg = 0#32 := by
      simpa [mustBeZeroOk, hop] using hz
    rw [hop, hrsv, hvar, ha8, ha16] at hword
    exact ⟨rfl, by rw [encode, hword]⟩
  · rw [decodeRequest_pack hop hz] at h
    cases h
    obtain ⟨hrsv, hvar, rfl⟩ : rsvField opw = 0#3 ∧ varField opw = 0#1 ∧ arg = 0#32 := by
      simpa [mustBeZeroOk, hop] using hz
    rw [hop, hrsv, hvar] at hword
    exact ⟨rfl, by rw [encode, hword]⟩

/-- The words that decode to a request are those it is encoded by. -/
theorem encode_of_decodeRequest {opw arg : Word} {i : Instr} (h : decodeRequest opw arg = .ok i) :
    i.wf = true ∧ encode i = .request opw arg := by
  have hword := reservedOpw_eta opw
  by_cases hlegal : 1 ≤ (opField opw).toNat ∧ (opField opw).toNat ≤ 6
  · obtain ⟨h1, h6⟩ := hlegal
    exact encode_of_decodeRequest_legal h1 h6 h
  · rcases reservedOp_cases hlegal with h0 | h7 | h8
    · rw [decodeRequest_reservedOp0 h0] at h
      cases h
      exact ⟨rfl, by rw [encode, ← h0, hword]⟩
    · rw [decodeRequest_reservedOp7 h7] at h
      cases h
      exact ⟨rfl, by rw [encode, ← h7, hword]⟩
    · rw [decodeRequest_reservedOp8F h8] at h
      cases h
      exact ⟨by simpa [Instr.wf, opInUpperHalf] using h8, by rw [encode, hword]⟩

/-- Each row of the opcode table is encoded by its own byte at an opcode's place. -/
theorem encode_of_mem_opcodeRows {b : Byte} {i : Instr} (h : (b, i) ∈ opcodeRows Config.opc) :
    i.wf = true ∧ encode i = .wire .command b := by
  have hall : ∀ row ∈ opcodeRows Config.opc, row.2.wf = true ∧ encode row.2 = .wire .command row.1 := by decide
  exact hall _ h

/-- A byte whose upper half is that of `PAGE_SELECT_BASE` is the base plus its lower half (40_command_vocabulary.md
R123). -/
theorem pageSelectBase_add {b : Byte} (h : b.extractLsb' 4 4 = Config.pageSelectBase.extractLsb' 4 4) :
    Config.pageSelectBase + (b.extractLsb' 0 4).setWidth 8 = b := by
  revert b
  decide

/-- A wire byte that decodes is the one its row is encoded by, at that place. -/
theorem encode_of_decodeWire {pos : WirePos} {b : Byte} {i : Instr} (h : decodeWire pos b = .ok i) :
    i.wf = true ∧ encode i = .wire pos b := by
  cases pos with
  | first =>
    simp only [decodeWire] at h
    split at h
    · cases h; subst_vars; exact ⟨rfl, rfl⟩
    · split at h
      · cases h; subst_vars; exact ⟨rfl, rfl⟩
      · cases h
  | command =>
    simp only [decodeWire, decodeOpcode] at h
    split at h
    · rename_i hrow
      cases h
      exact encode_of_mem_opcodeRows (Machine.lookupOpcode_mem hrow)
    · split at h
      · rename_i hupper
        cases h
        exact ⟨rfl, by rw [encode, pageSelectBase_add hupper]⟩
      · cases h
  | pageColLo =>
    simp only [decodeWire] at h
    split at h
    · cases h; subst_vars; exact ⟨rfl, rfl⟩
    · cases h
  | pageColHi =>
    simp only [decodeWire] at h
    split at h
    · cases h; subst_vars; exact ⟨rfl, rfl⟩
    · cases h

/-- Settles O2, for the words of a request and for a wire byte at its place. -/
theorem encodeInvertsDecode : Obligations.EncodeInvertsDecode := by
  intro c i h
  cases c with
  | request opw arg => exact encode_of_decodeRequest h
  | wire pos b => exact encode_of_decodeWire h

/-! ## Decoding as numbers -/

/-- A field of a word is the word shifted down to it, taken to the field's width. -/
theorem extractLsb'_eq_ofNat {w : Nat} (x : BitVec w) (start len : Nat) :
    x.extractLsb' start len = BitVec.ofNat len (x.toNat / 2 ^ start) := by
  simp [BitVec.extractLsb', Nat.shiftRight_eq_div_pow]

/-- A number taken to a width is its remainder taken to that width. -/
theorem ofNat_mod_two_pow (n x : Nat) : BitVec.ofNat n (x % 2 ^ n) = BitVec.ofNat n x :=
  BitVec.eq_of_toNat_eq (by simp)

/-- The width read from `OPW[15:8]`, as a number (R75). -/
theorem widthOfField_a8Field (opw : Word) :
    widthOfField (a8Field opw) = BitVec.ofNat 9 (opw.toNat / 2 ^ 8 % 2 ^ 8 + 1) := by
  apply BitVec.eq_of_toNat_eq
  rw [widthOfField, BitVec.toNat_add, BitVec.toNat_setWidth, a8Field_toNat]
  simp

/-- The variant read from `OPW[4]`, as a number (R72). -/
theorem variantOfBit_varField (opw : Word) :
    variantOfBit (varField opw) = if opw.toNat / 2 ^ 4 % 2 = 0 then .A else .B := by
  simp only [variantOfBit, ← BitVec.toNat_inj, varField_toNat, BitVec.toNat_ofNat, Nat.zero_mod]

/-- `ARG[0]`, as a number (R73). -/
theorem mode1Field_eq_one_iff (arg : Word) : mode1Field arg = 1#1 ↔ arg.toNat % 2 = 1 := by
  simp [mode1Field, ← BitVec.toNat_inj, BitVec.extractLsb'_toNat]

/-- Settles O3: each clause is what the words of its `OP` decode to, with the fields as numbers. -/
theorem everyRequestWordDecodes : Obligations.EveryRequestWordDecodes := by
  intro opw arg
  have hop : ∀ n, opw.toNat % 16 = n → opField opw = BitVec.ofNat 4 n := fun n h => by
    rw [← h, opField, extractLsb'_eq_ofNat, pow_zero, Nat.div_one]
    exact (ofNat_mod_two_pow 4 _).symm
  have hhi : hiField opw = BitVec.ofNat 28 (opw.toNat / 2 ^ 4) := extractLsb'_eq_ofNat ..
  have ha16 : a16Field opw = BitVec.ofNat 16 (opw.toNat / 2 ^ 16) := extractLsb'_eq_ofNat ..
  have ha8 : a8Field opw = BitVec.ofNat 8 (opw.toNat / 2 ^ 8 % 2 ^ 8) := by
    rw [ofNat_mod_two_pow, a8Field, extractLsb'_eq_ofNat]
  have hbus : busField arg = BitVec.ofNat 8 (arg.toNat % 2 ^ 8) := by
    rw [ofNat_mod_two_pow, busField, extractLsb'_eq_ofNat, pow_zero, Nat.div_one]
  have haddr : addrField arg = BitVec.ofNat 7 (arg.toNat / 2 ^ 8 % 2 ^ 7) := by
    rw [ofNat_mod_two_pow, addrField, extractLsb'_eq_ofNat]
  have hnextra : nextraField arg = BitVec.ofNat 16 (arg.toNat / 2 ^ 16) := extractLsb'_eq_ofNat ..
  refine ⟨fun h => ?_, fun h => ?_, fun h => ?_, fun h1 h6 h => ?_, fun hzero => ?_⟩
  · rw [decodeRequest_reservedOp0 (hop 0 h), hhi]
  · rw [decodeRequest_reservedOp7 (hop 7 h), hhi]
  · rw [decodeRequest_reservedOp8F (by rwa [opField_toNat]), hhi, hop _ rfl]
  · exact decodeRequest_reservedField (by rwa [opField_toNat]) (by rwa [opField_toNat])
      ((mustBeZeroOk_eq_false_iff h1 h6).mpr h)
  · have hz : 1 ≤ opw.toNat % 16 → opw.toNat % 16 ≤ 6 → mustBeZeroOk opw arg = true := fun h1 h6 =>
      Bool.eq_true_of_not_eq_false (mt (mustBeZeroOk_eq_false_iff h1 h6).mp hzero)
    refine ⟨fun h => ?_, fun h => ?_, fun h => ?_, fun h => ?_, fun h => ?_, fun h => ?_⟩
    · rw [decodeRequest_init (hop 1 h) (hz (by omega) (by omega)), variantOfBit_varField, widthOfField_a8Field, ha16,
        hbus, haddr, hnextra]
    · rw [decodeRequest_wrcmd (hop 2 h) (hz (by omega) (by omega)), ha16]
    · rw [decodeRequest_wrdata (hop 3 h) (hz (by omega) (by omega)), ha16]
    · rw [decodeRequest_render (hop 4 h) (hz (by omega) (by omega)), widthOfField_a8Field, ha16]
      simp only [mode1Field_eq_one_iff]
    · exact decodeRequest_close (hop 5 h) (hz (by omega) (by omega))
    · rw [decodeRequest_pack (hop 6 h) (hz (by omega) (by omega)), ha16, ha8]

/-- Settles O4, by evaluation. -/
theorem sampleWordsDecode : Obligations.SampleWordsDecode := by
  unfold Obligations.SampleWordsDecode
  decide

end Sys2Proof
end

section
/-! The invariant of every state the host can observe (41_sequencer.md R149): O59 and O60. -/

namespace Sys2Proof.Machine

/-! ## What the end of a request reports -/

/-- The error after a failed write is one of the two write errors. -/
theorem failErr_cases (log : List BusEvent) : failErr log = .writeCmd ∨ failErr log = .writeData := by
  unfold failErr
  split
  · split
    · exact .inl rfl
    · exact .inr rfl
  all_goals exact .inl rfl

/-- The end of a request that sent transactions: the report, with nothing else changed. -/
theorem endSend_eq (r : Answer) (t : State) :
    ∃ result cause, endSend (r, t) = endRequest result cause t ∧
      ((r = .ok ∧ result = 0 ∧ cause = 0) ∨ (r = .fail ∧ result = 3 ∧ (cause = 1 ∨ cause = 2))) := by
  cases r with
  | ok => exact ⟨0, 0, rfl, .inl ⟨rfl, rfl, rfl⟩⟩
  | fail =>
    rcases failErr_cases t.log with h | h
    · exact ⟨3, 1, by simp [endSend, h, Err.result, Err.cause], .inr ⟨rfl, rfl, .inl rfl⟩⟩
    · exact ⟨3, 2, by simp [endSend, h, Err.result, Err.cause], .inr ⟨rfl, rfl, .inr rfl⟩⟩

/-- Every error is reported by a pair of R202's table. -/
theorem Err.legalReport (e : Err) : legalReport e.result e.cause = true := by
  cases e <;> rfl

/-! ## The geometry that INIT loads -/

/-- The geometry that INIT loads once its check has passed is legal, its width being one that can be encoded. -/
theorem loadConfig_geometryLegal {var : Variant} {width : BitVec 9} {height : BitVec 16} (bus : BitVec 8)
    (addr : BitVec 7) (s : State) (hw : 1 ≤ width.toNat ∧ width.toNat ≤ 256) (hg : geometryOk var height = true) :
    GeometryLegal (loadConfig var width height bus addr s) := by
  have hwidth : (width.setWidth 16).toNat = width.toNat := by
    rw [BitVec.toNat_setWidth]
    omega
  have hpages : (BitVec.ofNat 16 (pageCount height)).toNat = height.toNat / 8 := by
    rw [BitVec.toNat_ofNat, pageCount]
    omega
  obtain ⟨hlo, hhi⟩ := (geometryOk_iff var height).mp hg
  refine ⟨?_, ?_, ?_, ?_⟩
  · simpa [hwidth] using hw
  · simpa using hpages
  · simpa [hpages] using hlo
  · simpa [hpages] using hhi

/-- INIT sends its table in one transaction and its at most 65535 extra bytes in at most 2048. -/
theorem initTxs_length_le (var : Variant) {extra : List Byte} {n : BitVec 16} (hn : extra.length = n.toNat) :
    (initTxs var extra).length ≤ 2049 := by
  have htable : (initTable Config.opc var).length ≤ 32 := by cases var <;> decide
  rw [initTxs, List.length_append, transactions_length, transactions_length]
  omega

/-- Every transaction of INIT has the format. -/
theorem initTxs_valid (var : Variant) (extra : List Byte) : ∀ t ∈ initTxs var extra, validTransaction t = true := by
  intro t ht
  rcases List.mem_append.mp ht with ht | ht
  · exact transactions_valid (.inl rfl) _ t ht
  · exact transactions_valid (.inl rfl) _ t ht

/-- Delivered events have the format if the transactions have. -/
theorem Delivered.valid {ts : List (List Byte)} {r : Answer} {es : List BusEvent} (h : Delivered ts r es)
    (hts : ∀ t ∈ ts, validTransaction t = true) : ∀ e ∈ es, validEvent e = true := by
  intro e he
  obtain ⟨t, ht, a, rfl⟩ := h.mem e he
  exact hts t ht

/-! ## The invariant at reset, and after each kind of request -/

/-- Settles O59. -/
theorem invariantAtReset : Obligations.InvariantAtReset where
  fbWf := .nil
  pbufWf := .nil
  pbufBound := nofun
  notFaulted := rfl
  notInitializing := nofun
  readyOpen := nofun
  uninitClosed := fun _ => rfl
  report := rfl
  txBound := Nat.zero_le _
  geometry := .inr ⟨rfl, rfl, rfl, rfl⟩
  uninitLog := fun _ => ⟨rfl, rfl⟩
  connectedLog := fun h => absurd rfl h
  handle := rfl
  logValid := nofun

/-- A report of R202's table, with no bus event. -/
theorem Inv.endRequest_beginRequest {s : State} (h : Inv s) {result cause : BitVec 4}
    (hr : legalReport result cause = true) : Inv (endRequest result cause (beginRequest s)) :=
  { h with report := hr, txBound := Nat.zero_le _ }

/-- A request that sends transactions while it stays `READY`. -/
theorem Inv.send {i : Instr} {s : State} {ts : List (List Byte)} {r : Answer} {es : List BusEvent} (h : Inv s)
    (hs : SendsReady i s ts) (hd : Delivered ts r es) (d : List Answer) (f : Nat) :
    Inv (endSend (r, afterEvents es.length es d f (beginRequest s))) := by
  obtain ⟨result, cause, heq, hcase⟩ := endSend_eq r (afterEvents es.length es d f (beginRequest s))
  rw [heq]
  have hlife : s.life ≠ .uninit := by rw [hs.ready]; decide
  have hgeometry : GeometryLegal s := h.geometry.resolve_right fun hu => hlife hu.1
  have hbound : es.length ≤ 2049 := hd.length_le.trans (hs.bound hgeometry)
  obtain ⟨-, hopens, hcloses⟩ := hd.counts
  exact { h with
    report := by rcases hcase with ⟨-, rfl, rfl⟩ | ⟨-, rfl, rfl | rfl⟩ <;> rfl
    txBound := by
      simp
      omega
    uninitLog := fun hu => absurd hu hlife
    connectedLog := fun hc => by
      obtain ⟨ho, hc⟩ := h.connectedLog hc
      exact ⟨by simpa [hopens] using ho, (by simp [hcloses] : _ = s.log.countP isCloseOk).trans hc⟩
    handle := (hd.connection s.log).trans h.handle
    logValid := fun e he => (List.mem_append.mp he).elim (h.logValid e) (hd.valid hs.valid e) }

/-- INIT whose open was answered `ok`: the connection is open, and the block is `READY` or `CLOSED`. -/
theorem Inv.opened {var : Variant} {width : BitVec 9} {height : BitVec 16} {extra : List Byte} {n : BitVec 16}
    {r : Answer} {es : List BusEvent} {l : LifeState} {result cause : BitVec 4} {s : State} (h : Inv s)
    (hs : s.life = .uninit) (hw : 1 ≤ width.toNat ∧ width.toNat ≤ 256) (hg : geometryOk var height = true)
    (hn : extra.length = n.toNat) (hd : Delivered (initTxs var extra) r es) (hl : l = .ready ∨ l = .closed)
    (hr : legalReport result cause = true) (bus : BitVec 8) (addr : BitVec 7) (d : List Answer) (f : Nat) :
    Inv (endRequest result cause (setLife l (setHandleOpen true
      (afterEvents es.length (.opened bus addr .ok :: es) d f
        (loadConfig var width height bus addr (beginRequest s)))))) := by
  have hgeometry := loadConfig_geometryLegal bus addr (beginRequest s) hw hg
  have hbound : es.length ≤ 2049 := hd.length_le.trans (initTxs_length_le var hn)
  have hlife : l ≠ .uninit ∧ l ≠ .initializing := by rcases hl with rfl | rfl <;> decide
  obtain ⟨-, hopens, hcloses⟩ := hd.counts
  obtain ⟨hopens₀, hcloses₀⟩ := h.uninitLog hs
  exact { h with
    notInitializing := hlife.2
    readyOpen := fun _ => rfl
    uninitClosed := fun hu => absurd hu hlife.1
    report := hr
    txBound := by
      simp
      omega
    geometry := .inl hgeometry
    uninitLog := fun hu => absurd hu hlife.1
    connectedLog := fun _ => by simp [List.countP_cons, hopens, hcloses, hopens₀, hcloses₀, isOpenOk, isCloseOk]
    handle := by
      have happend : s.log ++ .opened bus addr .ok :: es = s.log ++ [.opened bus addr .ok] ++ es := by simp
      change connectionOpen (s.log ++ .opened bus addr .ok :: es) = true
      rw [happend, hd.connection, connectionOpen_append]
      rfl
    logValid := fun e he => by
      rcases List.mem_append.mp he with he | he
      · exact h.logValid e he
      · rcases List.mem_cons.mp he with rfl | he
        · rfl
        · exact hd.valid (initTxs_valid var extra) e he }

/-- CLOSE of an open connection, whatever the transport answered: the connection is open after it exactly if the close
failed. -/
theorem Inv.closed {s : State} (h : Inv s) (hl : s.life ≠ .uninit) (ho : s.handleOpen = true)
    {result cause : BitVec 4} (hr : legalReport result cause = true) (r : Answer) (d : List Answer) (f : Nat) :
    Inv (endRequest result cause (setHandleOpen (decide (r = .fail))
      (afterEvents 0 [.closed r] d f (setLife .closed (beginRequest s))))) := by
  obtain ⟨hopens, hcloses⟩ := h.connectedLog hl
  exact { h with
    notInitializing := nofun
    readyOpen := nofun
    uninitClosed := nofun
    report := hr
    txBound := Nat.zero_le _
    geometry := .inl (h.geometry.resolve_right fun hu => hl hu.1)
    uninitLog := nofun
    connectedLog := fun _ => by cases r <;> simp [hopens, hcloses, ho, isOpenOk, isCloseOk]
    handle := by cases r <;> simp [connectionOpen_append, h.handle, ho, isOpenOk, isCloseOk]
    logValid := fun e he => by
      rcases List.mem_append.mp he with he | he
      · exact h.logValid e he
      · rw [List.mem_singleton.mp he]
        rfl }

/-- Every request that goes on keeps the invariant, INIT's width being one that can be encoded. -/
theorem RequestCase.keepsInv {i : Instr} {s t : State} (h : RequestCase i s t) (hinv : Inv s)
    (hw : ∀ v w h b a n, i = .init v w h b a n → 1 ≤ w.toNat ∧ w.toNat ≤ 256) : Inv t := by
  cases h with
  | away e _ => exact hinv.endRequest_beginRequest e.legalReport
  | pack col pg b _ _ => exact { hinv with report := rfl, txBound := Nat.zero_le _ }
  | send ts r es d f hs hd => exact hinv.send hs hd d f
  | openFailed var width height bus addr n hi hl hg d f =>
    obtain ⟨hopens, hcloses⟩ := hinv.uninitLog hl
    have hgeometry := loadConfig_geometryLegal bus addr (beginRequest s) (hw _ _ _ _ _ _ hi) hg
    exact { hinv with
      notInitializing := nofun
      readyOpen := nofun
      uninitClosed := fun _ => hinv.uninitClosed hl
      report := rfl
      txBound := Nat.zero_le _
      geometry := .inl hgeometry
      uninitLog := fun _ => by simp [hopens, hcloses, isOpenOk, isCloseOk]
      connectedLog := fun hc => absurd rfl hc
      handle := by simpa [connectionOpen_append, isOpenOk, isCloseOk] using hinv.handle
      logValid := fun e he => by
        rcases List.mem_append.mp he with he | he
        · exact hinv.logValid e he
        · rw [List.mem_singleton.mp he]
          rfl }
  | initFailed var width height bus addr n hi hl hg extra hn es hd d f =>
    exact hinv.opened hl (hw _ _ _ _ _ _ hi) hg hn hd (.inr rfl) rfl bus addr d f
  | initDone var width height bus addr n hi hl hg extra hn es hd d f =>
    exact hinv.opened hl (hw _ _ _ _ _ _ hi) hg hn hd (.inl rfl) rfl bus addr d f
  | closeIdle hi hl ho =>
    exact { hinv with
      notInitializing := nofun
      readyOpen := nofun
      uninitClosed := nofun
      report := rfl
      txBound := Nat.zero_le _
      geometry := .inl (hinv.geometry.resolve_right fun hu => hl hu.1)
      uninitLog := nofun
      connectedLog := fun _ => hinv.connectedLog hl }
  | closeFailed hi hl ho d f =>
    have hkept : setHandleOpen true (afterEvents 0 [.closed .fail] d f (setLife .closed (beginRequest s))) =
        afterEvents 0 [.closed .fail] d f (setLife .closed (beginRequest s)) := by
      rw [← ho]
      rfl
    rw [← hkept]
    exact hinv.closed hl ho rfl .fail d f
  | closeDone hi hl ho d f => exact hinv.closed hl ho rfl .ok d f

/-! ## Every step -/

/-- Every instruction that goes on keeps the invariant, INIT's width being one that can be encoded. -/
theorem exec_keepsInv {i : Instr} {s t : State} (hinv : Inv s)
    (hw : ∀ v w h b a n, i = .init v w h b a n → 1 ≤ w.toNat ∧ w.toNat ≤ 256) (h : exec i s = .next t) : Inv t := by
  cases hi : isRequest i with
  | true => exact (request_cases hi h).keepsInv hinv hw
  | false =>
    obtain ⟨g, hg⟩ := wire_cases hi s
    obtain rfl : { s with staged := g } = t := Host.Outcome.next.inj (hg.symm.trans h)
    exact { hinv with }

/-- A request launched by its words keeps the invariant, illegal words among them. -/
theorem launch_keepsInv {s t : State} (hinv : Inv s) (h : launch s = .next t) : Inv t := by
  cases hd : decodeRequest s.opw s.arg with
  | ok i =>
    rw [launch_of_decode hd] at h
    refine exec_keepsInv hinv (fun v w hh b a n hi => ?_) h
    subst hi
    exact decodeRequest_init_width hd
  | error e =>
    rw [launch_of_error hd] at h
    cases h
    exact hinv.endRequest_beginRequest rfl

/-- Every move that goes on keeps the invariant. -/
theorem applyMove_keepsInv {m : Move} {s t : State} (hinv : Inv s) (h : applyMove m s = .next t) : Inv t := by
  cases m <;> simp only [applyMove] at h
  case regWrite offset v =>
    unfold hostWriteReg at h
    split at h
    · cases h
    split at h
    · exact launch_keepsInv (s := { s with opw := v }) { hinv with } h
    split at h <;> cases h <;> exact { hinv with }
  case regRead offset =>
    unfold hostReadReg at h
    split at h <;> cases h
    exact { hinv with }
  case fbWrite index px => cases h; exact { hinv with fbWf := Memory.set_wf hinv.fbWf _ _ }
  case fbRead index =>
    unfold hostReadFb at h
    split at h <;> cases h
    exact { hinv with }
  case pbufWrite index bytes =>
    unfold hostWritePbuf at h
    split at h <;> cases h
    rename_i hin
    exact { hinv with
      pbufWf := Memory.setRun_wf _ hinv.pbufWf _
      pbufBound := Memory.setRun_bound _ hinv.pbufBound _ hin }
  case pbufRead index =>
    unfold hostReadPbuf at h
    split at h
    · split at h <;> cases h
      exact { hinv with }
    · cases h
  case fbClear => cases h; exact { hinv with fbWf := Memory.setRun_wf _ hinv.fbWf _ }
  case fbSet x y => cases h; exact { hinv with fbWf := Memory.set_wf hinv.fbWf _ _ }
  case answers rs => cases h; exact { hinv with }
  case reset =>
    cases h
    have hreset : Inv State.reset := invariantAtReset
    exact { hreset with }
  case emit pos b =>
    unfold emitByte at h
    split at h
    · rename_i i hd
      refine exec_keepsInv hinv (fun v w hh b' a n hi => ?_) h
      subst hi
      exact absurd (decodeWire_not_request hd) nofun
    · cases h

/-- Settles O60: a step is the next move, and with none to come nothing changes. -/
theorem everyStepKeepsTheInvariant : Obligations.EveryStepKeepsTheInvariant := by
  intro s t hinv h
  cases hm : s.moves with
  | nil =>
    rw [step_idle hm] at h
    cases h
    exact hinv
  | cons m ms =>
    rw [step_move hm] at h
    exact applyMove_keepsInv (s := { s with moves := ms }) { hinv with } h

end Sys2Proof.Machine
end

section
/-! What a request does to the bus log, the report and the registers, for every instruction: O52 to O55, O57 and O58. -/

namespace Sys2Proof.Machine

/-! ## The events of a request -/

/-- Events that were all answered `ok` but perhaps the last, which was answered `fail` exactly if `r` is `fail`. -/
def FailsAtLast (es : List BusEvent) (r : Answer) : Prop :=
  (∀ e ∈ es.dropLast, e.answer = .ok) ∧ ((∃ e, es.getLast? = some e ∧ e.answer = .fail) ↔ r = .fail)

theorem FailsAtLast.nil : FailsAtLast [] .ok := by simp [FailsAtLast]

theorem FailsAtLast.single (e : BusEvent) : FailsAtLast [e] e.answer := by simp [FailsAtLast]

theorem Delivered.failsAtLast {ts : List (List Byte)} {r : Answer} {es : List BusEvent} (h : Delivered ts r es) :
    FailsAtLast es r := by
  obtain ⟨hinit, hlast, -⟩ := h.answers
  exact ⟨hinit, hlast⟩

/-- An event answered `ok` before others. -/
theorem FailsAtLast.cons {e : BusEvent} {es : List BusEvent} {r : Answer} (h : FailsAtLast es r)
    (he : e.answer = .ok) : FailsAtLast (e :: es) r := by
  obtain ⟨hinit, hlast⟩ := h
  cases es with
  | nil => simpa [FailsAtLast, he] using hlast
  | cons e' es => exact ⟨by simpa [he] using hinit, by simpa [List.getLast?_cons_cons] using hlast⟩

/-- The events of a request: what it appends to the log, in the format, up to the first failure; the writes among them
counted; the result a transport error exactly after a failure. -/
structure RequestEvents (s t : State) (es : List BusEvent) (r : Answer) : Prop where
  log : t.log = s.log ++ es
  valid : ∀ e ∈ es, validEvent e = true
  fails : FailsAtLast es r
  counted : t.txCount = BitVec.ofNat 32 (es.countP isWrite)
  failed : r = .fail ↔ (t.result = 2 ∨ t.result = 3 ∨ t.result = 4)

/-- A request turned away reports a precondition error or an illegal encoding. -/
theorem result_of_turnedAway {e : Err} (h : turnedAway e = true) : e.result = 1 ∨ e.result = 5 := by
  cases e <;> simp_all [turnedAway, Err.result]

/-- The events of a request that goes on. -/
theorem RequestCase.events {i : Instr} {s t : State} (h : RequestCase i s t) : ∃ es r, RequestEvents s t es r := by
  cases h with
  | away e he =>
    refine ⟨[], .ok, ⟨by simp, by simp, .nil, rfl, ?_⟩⟩
    rcases result_of_turnedAway he with hr | hr <;> simp [hr]
  | pack col pg b _ _ => exact ⟨[], .ok, ⟨by simp, by simp, .nil, rfl, by simp⟩⟩
  | send ts r es d f hs hd =>
    obtain ⟨hwrites, -, -⟩ := hd.counts
    obtain ⟨result, cause, heq, hcase⟩ := endSend_eq r (afterEvents es.length es d f (beginRequest s))
    refine ⟨es, r, ⟨by rw [heq]; rfl, hd.valid hs.valid, hd.failsAtLast, by simp [heq, hwrites], ?_⟩⟩
    rw [heq]
    rcases hcase with ⟨rfl, rfl, -⟩ | ⟨rfl, rfl, -⟩ <;> simp
  | openFailed var width height bus addr n _ _ _ d f =>
    exact ⟨[.opened bus addr .fail], .fail,
      ⟨rfl, by simp [validEvent], .single (.opened bus addr .fail), rfl, by simp [Err.result]⟩⟩
  | initFailed var width height bus addr n _ _ _ extra _ es hd d f =>
    obtain ⟨hwrites, -, -⟩ := hd.counts
    refine ⟨.opened bus addr .ok :: es, .fail, ⟨rfl, ?_, hd.failsAtLast.cons rfl, ?_, by simp [Err.result]⟩⟩
    · simpa [validEvent] using hd.valid (initTxs_valid var extra)
    · simp [hwrites, isWrite]
  | initDone var width height bus addr n _ _ _ extra _ es hd d f =>
    obtain ⟨hwrites, -, -⟩ := hd.counts
    refine ⟨.opened bus addr .ok :: es, .ok, ⟨rfl, ?_, hd.failsAtLast.cons rfl, ?_, by simp⟩⟩
    · simpa [validEvent] using hd.valid (initTxs_valid var extra)
    · simp [hwrites, isWrite]
  | closeIdle _ _ _ => exact ⟨[], .ok, ⟨by simp, by simp, .nil, rfl, by simp⟩⟩
  | closeFailed _ _ _ d f =>
    exact ⟨[.closed .fail], .fail,
      ⟨rfl, by simp [validEvent], .single (.closed .fail), rfl, by simp [Err.result]⟩⟩
  | closeDone _ _ _ d f =>
    exact ⟨[.closed .ok], .ok, ⟨rfl, by simp [validEvent], .single (.closed .ok), rfl, by simp⟩⟩

/-- A row of the wire vocabulary changes nothing but what is staged. -/
theorem wire_next {i : Instr} (hi : isRequest i = false) {s t : State} (h : exec i s = .next t) :
    ∃ g, t = { s with staged := g } := by
  obtain ⟨g, hg⟩ := wire_cases hi s
  exact ⟨g, (Host.Outcome.next.inj (hg.symm.trans h)).symm⟩

/-- Settles O52. -/
theorem logGrowsByValidTransactions : Obligations.LogGrowsByValidTransactions := by
  intro i s t h
  cases hi : isRequest i with
  | true =>
    obtain ⟨es, r, hes⟩ := (request_cases hi h).events
    exact ⟨es, hes.log, hes.valid⟩
  | false =>
    obtain ⟨g, rfl⟩ := wire_next hi h
    exact ⟨[], by simp, by simp⟩

/-- Settles O53. -/
theorem firstFailureEndsTheRequest : Obligations.FirstFailureEndsTheRequest := by
  intro i s t hi h
  obtain ⟨es, r, hes⟩ := (request_cases hi h).events
  obtain ⟨hinit, hlast⟩ := hes.fails
  exact ⟨es, hes.log, hinit, hlast.trans hes.failed⟩

/-- Settles O55. -/
theorem txCountCountsTheWrites : Obligations.TxCountCountsTheWrites := by
  intro i s t hi h
  obtain ⟨es, r, hes⟩ := (request_cases hi h).events
  exact ⟨es, hes.log, hes.counted⟩

/-- Settles O54: a request with such a result is one that was turned away. -/
theorem preconditionErrorsTouchNoBus : Obligations.PreconditionErrorsTouchNoBus := by
  intro i s t hi h hresult
  cases request_cases hi h with
  | away e _ => exact ⟨rfl, rfl, rfl, rfl⟩
  | send ts r es d f _ _ =>
    obtain ⟨result, cause, heq, hcase⟩ := endSend_eq r (afterEvents es.length es d f (beginRequest s))
    rw [heq, endRequest_result] at hresult
    rcases hcase with ⟨-, rfl, -⟩ | ⟨-, rfl, -⟩ <;> simp at hresult
  | pack | openFailed | initFailed | initDone | closeIdle | closeFailed | closeDone =>
    simp [Err.result] at hresult

/-! ## Which instruction writes which register -/

/-- Settles O57. -/
theorem onlyInitReachesReady : Obligations.OnlyInitReachesReady := by
  intro i s t h
  cases hi : isRequest i with
  | false =>
    obtain ⟨g, rfl⟩ := wire_next hi h
    exact ⟨id, .inl⟩
  | true =>
    cases request_cases hi h with
    | away | pack => exact ⟨id, .inl⟩
    | send ts r es d f _ _ =>
      obtain ⟨result, cause, heq, -⟩ := endSend_eq r (afterEvents es.length es d f (beginRequest s))
      rw [heq]
      exact ⟨id, .inl⟩
    | openFailed _ _ _ _ _ _ _ hl | initFailed _ _ _ _ _ _ _ hl =>
      exact ⟨fun hc => absurd (hc.symm.trans hl) nofun, nofun⟩
    | initDone var width height bus addr n hinit hl =>
      exact ⟨fun hc => absurd (hc.symm.trans hl) nofun, fun _ => .inr ⟨hl, _, _, _, _, _, _, hinit⟩⟩
    | closeIdle | closeFailed | closeDone => exact ⟨fun _ => rfl, nofun⟩

/-- Settles O58. -/
theorem registersHaveTheirOneWriter : Obligations.RegistersHaveTheirOneWriter := by
  intro i s t h
  cases hi : isRequest i with
  | false =>
    obtain ⟨g, rfl⟩ := wire_next hi h
    exact ⟨fun _ => ⟨rfl, rfl, rfl, rfl, rfl, rfl, fun _ => ⟨rfl, rfl⟩⟩, fun _ => rfl⟩
  | true =>
    cases request_cases hi h with
    | away => exact ⟨fun _ => ⟨rfl, rfl, rfl, rfl, rfl, rfl, fun _ => ⟨rfl, rfl⟩⟩, fun _ => rfl⟩
    | pack col pg b hpack =>
      exact ⟨fun _ => ⟨rfl, rfl, rfl, rfl, rfl, rfl, fun _ => ⟨rfl, rfl⟩⟩, fun hn => absurd hpack (hn col pg)⟩
    | send ts r es d f _ _ =>
      obtain ⟨result, cause, heq, -⟩ := endSend_eq r (afterEvents es.length es d f (beginRequest s))
      rw [heq]
      exact ⟨fun _ => ⟨rfl, rfl, rfl, rfl, rfl, rfl, fun _ => ⟨rfl, rfl⟩⟩, fun _ => rfl⟩
    | openFailed var width height bus addr n hinit | initFailed var width height bus addr n hinit
    | initDone var width height bus addr n hinit =>
      exact ⟨fun hn => absurd hinit (hn var width height bus addr n), fun _ => rfl⟩
    | closeIdle hc | closeFailed hc | closeDone hc =>
      exact ⟨fun _ => ⟨rfl, rfl, rfl, rfl, rfl, rfl, fun hn => absurd hc hn⟩, fun _ => rfl⟩

end Sys2Proof.Machine
end

section
/-! Each request by the outcome of its checks and of its reads, an equation for each case (41_sequencer.md R145 to R148,
42_bit_unpacker.md R166, 43_render.md R176, 60_exceptions.md R207). -/

namespace Sys2Proof.Machine

variable {s : State}

section
variable {var : Variant} {width : BitVec 9} {height : BitVec 16} {bus : BitVec 8} {addr : BitVec 7} {n : BitVec 16}

theorem execInit_of_state (hl : s.life ≠ .uninit) :
    execInit var width height bus addr n s = .next (raise .state (beginRequest s)) :=
  if_pos hl

theorem execInit_of_geometry (hl : s.life = .uninit) (hg : geometryOk var height = false) :
    execInit var width height bus addr n s = .next (raise .geometry (beginRequest s)) :=
  (if_neg (not_not.mpr hl)).trans (if_pos hg)

theorem execInit_of_unwritten (hl : s.life = .uninit) (hg : geometryOk var height = true) {a : Nat}
    (hr : readPbuf s.pbuf n.toNat = .error a) :
    execInit var width height bus addr n s = .fault (.unwrittenPbuf a (setFault (beginRequest s))) := by
  simp only [execInit, hl, hg, hr, ne_eq, not_true, Bool.true_eq_false, if_false]

theorem execInit_of_read (hl : s.life = .uninit) (hg : geometryOk var height = true) {extra : List Byte}
    (hr : readPbuf s.pbuf n.toNat = .ok extra) :
    execInit var width height bus addr n s =
      .next (initConnect var bus addr extra (loadConfig var width height bus addr (beginRequest s))) := by
  simp only [execInit, hl, hg, hr, ne_eq, not_true, Bool.true_eq_false, if_false]

end

section
variable {len : BitVec 16}

theorem execWrcmd_of_state (hl : s.life ≠ .ready) : execWrcmd len s = .next (raise .state (beginRequest s)) :=
  if_pos hl

theorem execWrcmd_of_unwritten (hl : s.life = .ready) {a : Nat} (hr : readPbuf s.pbuf len.toNat = .error a) :
    execWrcmd len s = .fault (.unwrittenPbuf a (setFault (beginRequest s))) := by
  simp only [execWrcmd, hl, hr, ne_eq, not_true, if_false]

theorem execWrcmd_of_read (hl : s.life = .ready) {seq : List Byte} (hr : readPbuf s.pbuf len.toNat = .ok seq) :
    execWrcmd len s = .next (endSend (sendTxs (transactions 0x00 seq) (beginRequest s))) := by
  simp only [execWrcmd, hl, hr, ne_eq, not_true, if_false, endWrite_writeCommands]

theorem execWrdata_of_state (hl : s.life ≠ .ready) : execWrdata len s = .next (raise .state (beginRequest s)) :=
  if_pos hl

theorem execWrdata_of_unwritten (hl : s.life = .ready) {a : Nat} (hr : readPbuf s.pbuf len.toNat = .error a) :
    execWrdata len s = .fault (.unwrittenPbuf a (setFault (beginRequest s))) := by
  simp only [execWrdata, hl, hr, ne_eq, not_true, if_false]

theorem execWrdata_of_read (hl : s.life = .ready) {seq : List Byte} (hr : readPbuf s.pbuf len.toNat = .ok seq) :
    execWrdata len s = .next (endSend (sendTxs (transactions 0x40 seq) (beginRequest s))) := by
  simp only [execWrdata, hl, hr, ne_eq, not_true, if_false, endWrite_writeData]

end

theorem execClose_of_state (hl : s.life = .uninit) : execClose s = .next (raise .state (beginRequest s)) :=
  if_pos hl

theorem execClose_of_accepted (hl : s.life ≠ .uninit) :
    execClose s = .next (closeConnection (setLife .closed (beginRequest s))) :=
  if_neg hl

section
variable {col : BitVec 16} {pg : BitVec 8}

theorem execPack_of_state (hl : s.life ≠ .ready) : execPack col pg s = .next (raise .state (beginRequest s)) :=
  if_pos hl

theorem execPack_of_range (hl : s.life = .ready) (hr : ¬ (col.toNat < s.width.toNat ∧ pg.toNat < s.pages.toNat)) :
    execPack col pg s = .next (raise .range (beginRequest s)) :=
  (if_neg (not_not.mpr hl)).trans (if_pos (decide_eq_false hr))

theorem execPack_of_unwritten (hl : s.life = .ready) (hx : col.toNat < s.width.toNat) (hp : pg.toNat < s.pages.toNat)
    {a : Nat} (hr : packColumn s.fb s.width.toNat col.toNat pg.toNat = .error a) :
    execPack col pg s = .fault (.unwrittenFb a (setFault (beginRequest s))) := by
  have hin : packInRange col pg s = true := decide_eq_true ⟨hx, hp⟩
  simp only [execPack, hl, hin, hr, ne_eq, not_true, Bool.true_eq_false, if_false]

theorem execPack_of_read (hl : s.life = .ready) (hx : col.toNat < s.width.toNat) (hp : pg.toNat < s.pages.toNat)
    {b : Byte} (hr : packColumn s.fb s.width.toNat col.toNat pg.toNat = .ok b) :
    execPack col pg s = .next (done (setPackOut b (beginRequest s))) := by
  have hin : packInRange col pg s = true := decide_eq_true ⟨hx, hp⟩
  simp only [execPack, hl, hin, hr, ne_eq, not_true, Bool.true_eq_false, if_false]

end

section
variable {fbw : BitVec 9} {fbh : BitVec 16} {mode1 : Bool}

theorem execRender_of_state (hl : s.life ≠ .ready) :
    execRender fbw fbh mode1 s = .next (raise .state (beginRequest s)) :=
  if_pos hl

theorem execRender_of_mode (hl : s.life = .ready) :
    execRender fbw fbh false s = .next (raise .mode (beginRequest s)) :=
  (if_neg (not_not.mpr hl)).trans (if_pos rfl)

theorem execRender_of_size (hl : s.life = .ready) (hsize : ¬ (fbw.toNat = s.width.toNat ∧ fbh = s.height)) :
    execRender fbw fbh true s = .next (raise .size (beginRequest s)) :=
  (if_neg (not_not.mpr hl)).trans ((if_neg nofun).trans (if_pos (decide_eq_false hsize)))

end

section
variable {fbw : BitVec 9} (hl : s.life = .ready) (hw : fbw.toNat = s.width.toNat)
include hl hw

/-- The engine of Variant A, once the checks have passed. -/
theorem execRender_eq_renderA (hv : s.variant = .A) : execRender fbw s.height true s = renderA (beginRequest s) := by
  have hsize : renderSizeOk fbw s.height s = true := decide_eq_true ⟨hw, rfl⟩
  simp only [execRender, hl, hsize, hv, ne_eq, not_true, Bool.true_eq_false, if_false]

/-- The engine of Variant B, once the checks have passed. -/
theorem execRender_eq_renderB (hv : s.variant = .B) : execRender fbw s.height true s = renderB (beginRequest s) := by
  have hsize : renderSizeOk fbw s.height s = true := decide_eq_true ⟨hw, rfl⟩
  simp only [execRender, hl, hsize, hv, ne_eq, not_true, Bool.true_eq_false, if_false]

theorem execRenderA_of_unwritten (hv : s.variant = .A) {a : Nat}
    (hr : frameDataA s.fb s.width.toNat s.pages.toNat = .error a) :
    execRender fbw s.height true s = .fault (.unwrittenFb a (setFault (beginRequest s))) := by
  simp only [execRender_eq_renderA hl hw hv, renderA, beginRequest_fb, beginRequest_width, beginRequest_pages, hr]

theorem execRenderA_of_read (hv : s.variant = .A) {data : List (List Byte)}
    (hr : frameDataA s.fb s.width.toNat s.pages.toNat = .ok data) :
    execRender fbw s.height true s = .next (endSend (sendTxs (pageTxs 0 data) (beginRequest s))) := by
  simp only [execRender_eq_renderA hl hw hv, renderA, beginRequest_fb, beginRequest_width, beginRequest_pages, hr,
    sendPages_eq data 0 (beginRequest s) rfl]

theorem execRenderB_of_unwritten (hv : s.variant = .B) {a : Nat}
    (hr : frameDataB s.fb s.width.toNat s.pages.toNat = .error a) :
    execRender fbw s.height true s = .fault (.unwrittenFb a (setFault (beginRequest s))) := by
  simp only [execRender_eq_renderB hl hw hv, renderB, beginRequest_fb, beginRequest_width, beginRequest_pages, hr]

theorem execRenderB_of_read (hv : s.variant = .B) {buf : List Byte}
    (hr : frameDataB s.fb s.width.toNat s.pages.toNat = .ok buf) :
    execRender fbw s.height true s =
      .next (endSend (sendTxs (transactions 0x00 (rangeCmdB Config.opc s.width s.pages) ++ transactions 0x40 buf)
        (beginRequest s))) := by
  simp only [execRender_eq_renderB hl hw hv, renderB, beginRequest_fb, beginRequest_width, beginRequest_pages, hr,
    sendFrame_eq _ buf (beginRequest s) rfl]

end

end Sys2Proof.Machine
end

section
/-! What no request reads: `RESULT` and `CAUSE` (10_state.md R23), and the FB cells beyond the frame (20_memory.md R45):
O20 and O56. -/

namespace Sys2Proof.Machine

/-- `s` with another FB and the report changed in some way: what a request's outcome does not depend on. -/
def changeUnread (r c : BitVec 4 → BitVec 4) (fb : List (Nat × Pixel)) (s : State) : State :=
  { s with result := r s.result, cause := c s.cause, fb := fb }

/-- `s` with another FB. -/
def changeFb (fb : List (Nat × Pixel)) (s : State) : State := { s with fb := fb }

/-- The fault with its state changed. -/
def Fault.mapState (φ : State → State) : Fault → Fault
  | .unwrittenFb a t => .unwrittenFb a (φ t)
  | .unwrittenPbuf a t => .unwrittenPbuf a (φ t)
  | .noSuchPbufCell a => .noSuchPbufCell a

/-- The outcome with its next state changed by `ψ`, and the state of a fault by `φ`. -/
def mapOutcome (ψ φ : State → State) : Result → Result
  | .next t => .next (ψ t)
  | .fault f => .fault (f.mapState φ)
  | .refused e => .refused e

section
variable (r c : BitVec 4 → BitVec 4) (fb : List (Nat × Pixel))

/-- A bus call reads neither. -/
theorem busCall_changeUnread (ev : Answer → BusEvent) (s : State) :
    busCall ev (changeUnread r c fb s) = ((busCall ev s).1, changeUnread r c fb (busCall ev s).2) := by
  unfold busCall drawAnswer
  simp only [changeUnread]
  split <;> rfl

theorem sendTxs_changeUnread (ts : List (List Byte)) (s : State) :
    sendTxs ts (changeUnread r c fb s) = ((sendTxs ts s).1, changeUnread r c fb (sendTxs ts s).2) := by
  induction ts generalizing s with
  | nil => rfl
  | cons t ts ih =>
    have hcall : busWrite t (countTx (changeUnread r c fb s)) =
        ((busWrite t (countTx s)).1, changeUnread r c fb (busWrite t (countTx s)).2) :=
      busCall_changeUnread r c fb (.write t) (countTx s)
    simp only [sendTxs, hcall]
    rcases busWrite t (countTx s) with ⟨_ | _, u⟩
    · exact ih u
    · rfl

theorem writeCommands_changeUnread (bs : List Byte) (s : State) :
    writeCommands bs (changeUnread r c fb s) =
      ((writeCommands bs s).1, changeUnread r c fb (writeCommands bs s).2) := by
  rw [writeCommands_eq, writeCommands_eq]
  exact sendTxs_changeUnread r c fb _ { s with staged := Staged.empty }

theorem endSend_changeUnread (ts : List (List Byte)) (s : State) :
    endSend (sendTxs ts (changeUnread r c fb s)) = changeFb fb (endSend (sendTxs ts s)) := by
  rw [sendTxs_changeUnread]
  rcases sendTxs ts s with ⟨_ | _, t⟩ <;> rfl

theorem initTransmit_changeUnread (var : Variant) (extra : List Byte) (s : State) :
    initTransmit var extra (changeUnread r c fb s) = changeFb fb (initTransmit var extra s) := by
  simp only [initTransmit, writeCommands_changeUnread]
  rcases writeCommands (initTable Config.opc var) s with ⟨_ | _, t⟩
  · simp only [writeCommands_changeUnread]
    rcases writeCommands extra t with ⟨_ | _, u⟩ <;> rfl
  · rfl

theorem initConnect_changeUnread (var : Variant) (bus : BitVec 8) (addr : BitVec 7) (extra : List Byte) (s : State) :
    initConnect var bus addr extra (changeUnread r c fb s) = changeFb fb (initConnect var bus addr extra s) := by
  simp only [initConnect, busOpen, busCall_changeUnread]
  rcases busCall (.opened bus addr) s with ⟨_ | _, t⟩
  · exact initTransmit_changeUnread r c fb var extra (setHandleOpen true t)
  · rfl

theorem closeConnection_changeUnread (s : State) :
    closeConnection (changeUnread r c fb s) = changeFb fb (closeConnection s) := by
  have hopen : (changeUnread r c fb s).handleOpen = s.handleOpen := rfl
  simp only [closeConnection, hopen, busClose, busCall_changeUnread]
  split
  · rcases busCall .closed s with ⟨_ | _, t⟩ <;> rfl
  · rfl

/-! ## The reads of a frame -/

/-- The (column, page) pairs of Variant B's order are those of the frame. -/
theorem mem_visitB {width pages : Nat} {cell : Nat × Nat} :
    cell ∈ visitB width pages ↔ cell.1 < width ∧ cell.2 < pages := by
  obtain ⟨x, p⟩ := cell
  simp only [visitB, List.mem_flatMap, List.mem_map, List.mem_reverse, List.mem_range, Prod.mk.injEq]
  constructor
  · rintro ⟨q, hq, y, hy, rfl, rfl⟩
    exact ⟨hy, hq⟩
  · rintro ⟨hx, hp⟩
    exact ⟨p, hp, x, hx, rfl, rfl⟩

/-- Two FBs that agree below `w * 8 * pages`. -/
def AgreeOnFrame (fb fb' : List (Nat × Pixel)) (w pages : Nat) : Prop :=
  ∀ a, a < w * 8 * pages → Memory.get fb' a = Memory.get fb a

section
variable {fb} {fb₀ : List (Nat × Pixel)} {w pages : Nat}

theorem AgreeOnFrame.packColumn (h : AgreeOnFrame fb₀ fb w pages) {x p : Nat} (hx : x < w) (hp : p < pages) :
    packColumn fb w x p = packColumn fb₀ w x p :=
  packColumn_congr fun _ hn => h _ (fbIndex_lt hx hp hn)

theorem AgreeOnFrame.frameDataA (h : AgreeOnFrame fb₀ fb w pages) :
    frameDataA fb w pages = frameDataA fb₀ w pages :=
  readAll_congr fun _ hp => readAll_congr fun _ hx => h.packColumn (List.mem_range.mp hx) (List.mem_range.mp hp)

theorem AgreeOnFrame.frameDataB (h : AgreeOnFrame fb₀ fb w pages) :
    frameDataB fb w pages = frameDataB fb₀ w pages := by
  refine readAll_congr fun cell hcell => ?_
  obtain ⟨hx, hp⟩ := mem_visitB.mp hcell
  exact h.packColumn hx hp

end

/-! ## Each request -/

theorem execInit_changeUnread (var : Variant) (width : BitVec 9) (height : BitVec 16) (bus : BitVec 8) (addr : BitVec 7)
    (n : BitVec 16) (s : State) :
    execInit var width height bus addr n (changeUnread r c fb s) =
      mapOutcome (changeFb fb) (changeUnread r c fb) (execInit var width height bus addr n s) := by
  by_cases hl : s.life = .uninit
  · cases hg : geometryOk var height with
    | false =>
      rw [execInit_of_geometry hl hg, execInit_of_geometry (s := changeUnread r c fb s) hl hg]
      rfl
    | true =>
      cases hr : readPbuf s.pbuf n.toNat with
      | error a =>
        rw [execInit_of_unwritten hl hg hr, execInit_of_unwritten (s := changeUnread r c fb s) hl hg hr]
        rfl
      | ok extra =>
        rw [execInit_of_read hl hg hr, execInit_of_read (s := changeUnread r c fb s) hl hg hr]
        exact congrArg Host.Outcome.next
          (initConnect_changeUnread r c fb var bus addr extra (loadConfig var width height bus addr (beginRequest s)))
  · rw [execInit_of_state hl, execInit_of_state (s := changeUnread r c fb s) hl]
    rfl

theorem execWrcmd_changeUnread (len : BitVec 16) (s : State) :
    execWrcmd len (changeUnread r c fb s) =
      mapOutcome (changeFb fb) (changeUnread r c fb) (execWrcmd len s) := by
  by_cases hl : s.life = .ready
  · cases hr : readPbuf s.pbuf len.toNat with
    | error a =>
      rw [execWrcmd_of_unwritten hl hr, execWrcmd_of_unwritten (s := changeUnread r c fb s) hl hr]
      rfl
    | ok seq =>
      rw [execWrcmd_of_read hl hr, execWrcmd_of_read (s := changeUnread r c fb s) hl hr]
      exact congrArg Host.Outcome.next (endSend_changeUnread r c fb _ (beginRequest s))
  · rw [execWrcmd_of_state hl, execWrcmd_of_state (s := changeUnread r c fb s) hl]
    rfl

theorem execWrdata_changeUnread (len : BitVec 16) (s : State) :
    execWrdata len (changeUnread r c fb s) =
      mapOutcome (changeFb fb) (changeUnread r c fb) (execWrdata len s) := by
  by_cases hl : s.life = .ready
  · cases hr : readPbuf s.pbuf len.toNat with
    | error a =>
      rw [execWrdata_of_unwritten hl hr, execWrdata_of_unwritten (s := changeUnread r c fb s) hl hr]
      rfl
    | ok seq =>
      rw [execWrdata_of_read hl hr, execWrdata_of_read (s := changeUnread r c fb s) hl hr]
      exact congrArg Host.Outcome.next (endSend_changeUnread r c fb _ (beginRequest s))
  · rw [execWrdata_of_state hl, execWrdata_of_state (s := changeUnread r c fb s) hl]
    rfl

theorem execClose_changeUnread (s : State) :
    execClose (changeUnread r c fb s) = mapOutcome (changeFb fb) (changeUnread r c fb) (execClose s) := by
  by_cases hl : s.life = .uninit
  · rw [execClose_of_state hl, execClose_of_state (s := changeUnread r c fb s) hl]
    rfl
  · rw [execClose_of_accepted hl, execClose_of_accepted (s := changeUnread r c fb s) hl]
    exact congrArg Host.Outcome.next (closeConnection_changeUnread r c fb (setLife .closed (beginRequest s)))

variable {fb} {s : State} (h : AgreeOnFrame s.fb fb s.width.toNat s.pages.toNat)
include h

theorem execPack_changeUnread (col : BitVec 16) (pg : BitVec 8) :
    execPack col pg (changeUnread r c fb s) =
      mapOutcome (changeFb fb) (changeUnread r c fb) (execPack col pg s) := by
  by_cases hl : s.life = .ready
  · by_cases hin : col.toNat < s.width.toNat ∧ pg.toNat < s.pages.toNat
    · obtain ⟨hx, hp⟩ := hin
      have hread := h.packColumn hx hp
      cases hr : packColumn s.fb s.width.toNat col.toNat pg.toNat with
      | error a =>
        rw [execPack_of_unwritten hl hx hp hr,
          execPack_of_unwritten (s := changeUnread r c fb s) hl hx hp (hread.trans hr)]
        rfl
      | ok b =>
        rw [execPack_of_read hl hx hp hr, execPack_of_read (s := changeUnread r c fb s) hl hx hp (hread.trans hr)]
        rfl
    · rw [execPack_of_range hl hin, execPack_of_range (s := changeUnread r c fb s) hl hin]
      rfl
  · rw [execPack_of_state hl, execPack_of_state (s := changeUnread r c fb s) hl]
    rfl

theorem execRender_accepted_changeUnread {fbw : BitVec 9} (hl : s.life = .ready) (hw : fbw.toNat = s.width.toNat) :
    execRender fbw s.height true (changeUnread r c fb s) =
      mapOutcome (changeFb fb) (changeUnread r c fb) (execRender fbw s.height true s) := by
  cases hv : s.variant with
  | A =>
    cases hr : frameDataA s.fb s.width.toNat s.pages.toNat with
    | error a =>
      rw [execRenderA_of_unwritten hl hw hv hr]
      exact execRenderA_of_unwritten (s := changeUnread r c fb s) hl hw hv (h.frameDataA.trans hr)
    | ok data =>
      rw [execRenderA_of_read hl hw hv hr]
      exact (execRenderA_of_read (s := changeUnread r c fb s) hl hw hv (h.frameDataA.trans hr)).trans
        (congrArg Host.Outcome.next (endSend_changeUnread r c fb _ (beginRequest s)))
  | B =>
    cases hr : frameDataB s.fb s.width.toNat s.pages.toNat with
    | error a =>
      rw [execRenderB_of_unwritten hl hw hv hr]
      exact execRenderB_of_unwritten (s := changeUnread r c fb s) hl hw hv (h.frameDataB.trans hr)
    | ok buf =>
      rw [execRenderB_of_read hl hw hv hr]
      exact (execRenderB_of_read (s := changeUnread r c fb s) hl hw hv (h.frameDataB.trans hr)).trans
        (congrArg Host.Outcome.next (endSend_changeUnread r c fb _ (beginRequest s)))

theorem execRender_changeUnread (fbw : BitVec 9) (fbh : BitVec 16) (mode1 : Bool) :
    execRender fbw fbh mode1 (changeUnread r c fb s) =
      mapOutcome (changeFb fb) (changeUnread r c fb) (execRender fbw fbh mode1 s) := by
  by_cases hl : s.life = .ready
  · cases mode1 with
    | false =>
      rw [execRender_of_mode hl, execRender_of_mode (s := changeUnread r c fb s) hl]
      rfl
    | true =>
      by_cases hsize : fbw.toNat = s.width.toNat ∧ fbh = s.height
      · obtain ⟨hw, rfl⟩ := hsize
        exact execRender_accepted_changeUnread r c h hl hw
      · rw [execRender_of_size hl hsize, execRender_of_size (s := changeUnread r c fb s) hl hsize]
        rfl
  · rw [execRender_of_state hl, execRender_of_state (s := changeUnread r c fb s) hl]
    rfl

/-- A request comes to the same outcome, whatever the report and the FB cells beyond the frame: its next state holds a
report of its own, and a fault keeps the one there was. -/
theorem exec_changeUnread {i : Instr} (hi : isRequest i = true) :
    exec i (changeUnread r c fb s) = mapOutcome (changeFb fb) (changeUnread r c fb) (exec i s) := by
  cases i
  case init => exact execInit_changeUnread ..
  case wrcmd => exact execWrcmd_changeUnread ..
  case wrdata => exact execWrdata_changeUnread ..
  case render => exact execRender_changeUnread r c h ..
  case close => exact execClose_changeUnread ..
  case pack => exact execPack_changeUnread r c h ..
  case reservedOp0 => rfl
  case reservedOp7 => rfl
  case reservedOp8F => rfl
  all_goals exact absurd hi Bool.false_ne_true

end

/-! ## The two statements -/

/-- A row of the wire vocabulary stages the same, whatever FB holds. -/
theorem wire_changeFb {i : Instr} (hi : isRequest i = false) (fb : List (Nat × Pixel)) (s : State) :
    exec i (changeFb fb s) = mapOutcome (changeFb fb) (changeFb fb) (exec i s) := by
  have hemit : ∀ bs, emitCommand bs (changeFb fb s) = changeFb fb (emitCommand bs s) := fun bs => by
    rw [emitCommand_eq, emitCommand_eq]
    rfl
  cases i with
  | init | wrcmd | wrdata | render | close | pack | reservedOp0 | reservedOp7 | reservedOp8F =>
    exact absurd hi.symm Bool.false_ne_true
  | prefixCmd | prefixData => rfl
  | displayOff | setMemoryMode | setHighColumn | setLowColumn | setContrast | segmentRemap | normalDisplay
  | setMultiplex | displayAllOnResume | setDisplayOffset | setClockDiv | setPrecharge | setComPins | setVcomDetect
  | chargePump | displayOn | setStartLine | comScanDec | columnAddr | pageAddr | pageSelect | pageColLo | pageColHi =>
    exact congrArg Host.Outcome.next (hemit _)

/-- Another FB in every state of an outcome. -/
theorem mapOutcome_changeFb (fb : List (Nat × Pixel)) (o : Result) :
    mapOutcome (changeFb fb) (changeFb fb) o = withFb fb o := by
  rcases o with _ | (_ | _ | _) | _ <;> rfl

/-- Settles O20, with the report unchanged. -/
theorem cellsBeyondTheFrameAreNeverRead : Obligations.CellsBeyondTheFrameAreNeverRead := by
  intro i s fb' h
  rw [← mapOutcome_changeFb]
  cases hi : isRequest i with
  | true => exact exec_changeUnread id id h hi
  | false => exact wire_changeFb hi fb' s

/-- Settles O56, with FB unchanged: the next state keeps FB. -/
theorem resultsDoNotInfluenceRequests : Obligations.ResultsDoNotInfluenceRequests := by
  intro i s t r c hi h
  obtain ⟨hfb, -⟩ := blockNeverWritesItsInputs i s t h
  have hsame : exec i (changeUnread (fun _ => r) (fun _ => c) s.fb s) = _ :=
    exec_changeUnread (fun _ => r) (fun _ => c) (fun _ _ => rfl) hi
  rw [h] at hsame
  have hkept : changeFb s.fb t = t := by rw [← hfb]; rfl
  exact hsame.trans (congrArg Host.Outcome.next hkept)

end Sys2Proof.Machine
end

section
/-! The life-cycle requests with their answers supplied (41_sequencer.md R145 to R148): O22 to O30. -/

namespace Sys2Proof.Machine

/-! ## The end of a request as the statements name it -/

/-- A request that ends after these events, every answer supplied. -/
theorem endRequest_afterEvents (result cause : BitVec 4) (n : Nat) (es : List BusEvent) (d : List Answer) (s : State) :
    endRequest result cause (afterEvents n es d s.freeCount (beginRequest s)) =
      { afterRequest result cause (BitVec.ofNat 32 n) s with draws := d, log := s.log ++ es } := by
  simp [endRequest, afterEvents, beginRequest, afterRequest]

/-- Every answer supplied and `ok`: all transactions sent, and the request ends `OK`. -/
theorem endSend_sendTxs_ok (ts : List (List Byte)) (s : State) (rest : List Answer)
    (h : s.draws = List.replicate ts.length .ok ++ rest) :
    endSend (sendTxs ts (beginRequest s)) =
      { afterRequest 0 0 (BitVec.ofNat 32 ts.length) s with draws := rest, log := s.log ++ sentOk ts } := by
  rw [sendTxs_ok ts (beginRequest s) rest h]
  exact endRequest_afterEvents 0 0 _ _ _ s

/-- The error after a failed write, by that transaction's mode byte. -/
theorem failErr_append_write (log : List BusEvent) (t : List Byte) (r : Answer) :
    failErr (log ++ [.write t r]) = if t.head? = some 0x00 then .writeCmd else .writeData := by
  simp [failErr]

/-- The `k+1`-th answer supplied `fail`: the first `k` transactions sent, that one failing, and the request ends with
`ERR_WRITE`, the cause by that transaction's mode byte. -/
theorem endSend_sendTxs_fail (ts : List (List Byte)) (s : State) (k : Nat) (hk : k < ts.length) (rest : List Answer)
    (h : s.draws = List.replicate k .ok ++ .fail :: rest) :
    endSend (sendTxs ts (beginRequest s)) =
      { afterRequest 3 (if ts[k].head? = some 0x00 then 1 else 2) (BitVec.ofNat 32 (k + 1)) s with
        draws := rest
        log := s.log ++ sentOk (ts.take k) ++ [.write ts[k] .fail] } := by
  rw [sendTxs_fail ts (beginRequest s) k hk rest h]
  simp only [endSend, afterEvents_log, beginRequest_log, ← List.append_assoc, failErr_append_write]
  split
  · exact (endRequest_afterEvents 3 1 _ _ _ s).trans (by rw [List.append_assoc])
  · exact (endRequest_afterEvents 3 2 _ _ _ s).trans (by rw [List.append_assoc])

/-! ## INIT -/

/-- INIT's table is one transaction, before those of the extra bytes. -/
theorem initTxs_eq (var : Variant) (extra : List Byte) :
    initTxs var extra = (0x00 :: initTable Config.opc var) :: transactions 0x00 extra := by
  have htable : 1 ≤ (initTable Config.opc var).length ∧ (initTable Config.opc var).length ≤ 32 := by
    cases var <;> decide
  rw [initTxs, transactions_single 0x00 htable.1 htable.2, List.singleton_append]

section
variable {var : Variant} {width : BitVec 9} {height : BitVec 16} {bus : BitVec 8} {addr : BitVec 7} {extra : List Byte}
  {rest : List Answer} {s : State}

/-- The events of INIT after its open was answered `ok`. -/
theorem afterEvents_opened (n : Nat) (es : List BusEvent) (d d' : List Answer) (f f' : Nat) :
    afterEvents n es d' f' (setHandleOpen true (afterEvents 0 [.opened bus addr .ok] d f s)) =
      setHandleOpen true (afterEvents n (.opened bus addr .ok :: es) d' f' s) := by
  simp [setHandleOpen, afterEvents]

theorem initConnect_openFail (h : s.draws = .fail :: rest) :
    initConnect var bus addr extra s =
      raise .openFailed (setLife .uninit (afterEvents 0 [.opened bus addr .fail] rest s.freeCount s)) := by
  simp only [initConnect, busOpen, busCall_event_supplied _ s h]

theorem initConnect_ok (hs : s.staged = Staged.empty)
    (h : s.draws = .ok :: (List.replicate (initTxs var extra).length .ok ++ rest)) :
    initConnect var bus addr extra s =
      done (setLife .ready (setHandleOpen true (afterEvents (initTxs var extra).length
        (.opened bus addr .ok :: sentOk (initTxs var extra)) rest s.freeCount s))) := by
  simp only [initConnect, busOpen, busCall_event_supplied _ s h]
  rw [initTransmit_eq var extra (setHandleOpen true (afterEvents 0 _ _ s.freeCount s)) hs, sendTxs_ok _ _ rest rfl,
    afterEvents_opened]
  rfl

theorem initConnect_writeFail (hs : s.staged = Staged.empty) {k : Nat} (hk : k < (initTxs var extra).length)
    (h : s.draws = .ok :: (List.replicate k .ok ++ .fail :: rest)) :
    initConnect var bus addr extra s =
      raise .writeCmd (setLife .closed (setHandleOpen true (afterEvents (k + 1)
        (.opened bus addr .ok :: (sentOk ((initTxs var extra).take k) ++ [.write (initTxs var extra)[k] .fail]))
        rest s.freeCount s))) := by
  simp only [initConnect, busOpen, busCall_event_supplied _ s h]
  rw [initTransmit_eq var extra (setHandleOpen true (afterEvents 0 _ _ s.freeCount s)) hs,
    sendTxs_fail _ _ k hk rest rfl, afterEvents_opened]
  rfl

/-- INIT as it ends after its open was answered `ok`, every answer supplied. -/
theorem endRequest_opened (result cause : BitVec 4) (l : LifeState) (n : Nat) (es : List BusEvent) (d : List Answer) :
    endRequest result cause (setLife l (setHandleOpen true (afterEvents n es d s.freeCount
        (loadConfig var width height bus addr (beginRequest s))))) =
      { afterRequest result cause (BitVec.ofNat 32 n) s with
        life := l
        handleOpen := true
        variant := var
        busIndex := bus
        devAddr := addr
        width := width.setWidth 16
        height := height
        pages := BitVec.ofNat 16 (height.toNat / 8)
        draws := d
        log := s.log ++ es } := by
  simp [endRequest, setLife, setHandleOpen, afterEvents, loadConfig, beginRequest, afterRequest, pageCount]

end

/-- Settles O22. -/
theorem initReachesReady : Obligations.InitReachesReady := by
  intro var width height bus addr nextra s extra rest hl hlegal hlen hholds hdraws
  have hg : geometryOk var height = true := (geometryOk_iff var height).mpr hlegal
  have hcount : (initTxs var extra).length = 1 + (nextra.toNat + 31) / 32 := by
    rw [initTxs_eq, List.length_cons, transactions_length, hlen, Nat.add_comm]
  have hanswers : s.draws = .ok :: (List.replicate (initTxs var extra).length .ok ++ rest) := by
    rw [hdraws, hcount, Nat.add_right_comm 1 1, List.replicate_succ]
    rfl
  calc exec (.init var width height bus addr nextra) s
    _ = .next (initConnect var bus addr extra (loadConfig var width height bus addr (beginRequest s))) :=
      execInit_of_read hl hg (readPbuf_eq_ok hlen hholds)
    _ = _ := by
      rw [initConnect_ok (s := loadConfig var width height bus addr (beginRequest s)) rfl hanswers, hcount,
        initTxs_eq]
      exact congrArg Host.Outcome.next (endRequest_opened 0 0 .ready _ _ rest)

/-- Settles O23. -/
theorem initOpenFailureReturnsToUninit : Obligations.InitOpenFailureReturnsToUninit := by
  intro var width height bus addr nextra s extra rest hl hlegal hlen hholds hdraws
  have hg : geometryOk var height = true := (geometryOk_iff var height).mpr hlegal
  calc exec (.init var width height bus addr nextra) s
    _ = .next (initConnect var bus addr extra (loadConfig var width height bus addr (beginRequest s))) :=
      execInit_of_read hl hg (readPbuf_eq_ok hlen hholds)
    _ = _ := by
      rw [initConnect_openFail (s := loadConfig var width height bus addr (beginRequest s)) hdraws, ← hl]
      simp [endRequest, setLife, afterEvents, loadConfig, beginRequest, afterRequest, pageCount, Err.result, Err.cause]

/-- Settles O24. -/
theorem initWriteFailureCloses : Obligations.InitWriteFailureCloses := by
  intro var width height bus addr nextra s extra rest k hk hl hlegal hlen hholds hdraws
  have hg : geometryOk var height = true := (geometryOk_iff var height).mpr hlegal
  simp only [← initTxs_eq] at hk ⊢
  calc exec (.init var width height bus addr nextra) s
    _ = .next (initConnect var bus addr extra (loadConfig var width height bus addr (beginRequest s))) :=
      execInit_of_read hl hg (readPbuf_eq_ok hlen hholds)
    _ = _ := by
      rw [initConnect_writeFail (s := loadConfig var width height bus addr (beginRequest s)) rfl hk hdraws]
      exact congrArg Host.Outcome.next (endRequest_opened 3 1 .closed _ _ rest)

/-- Settles O25: an illegal geometry fails INIT's check. -/
theorem initRefusesIllegalGeometry : Obligations.InitRefusesIllegalGeometry := by
  intro var width height bus addr nextra s hl hillegal
  have hg : geometryOk var height = false := by
    rw [Bool.eq_false_iff, ne_eq, geometryOk_iff]
    cases var <;> simp [PagesLegal] at hillegal ⊢ <;> omega
  exact execInit_of_geometry hl hg

/-- Settles O26, the table being the concatenation of its elements. -/
theorem initTablesAreByteExact : Obligations.InitTablesAreByteExact := fun _ => ⟨rfl, rfl⟩

/-! ## WRCMD, WRDATA and CLOSE -/

/-- Settles O27. -/
theorem writeRequestsSendTheSequence : Obligations.WriteRequestsSendTheSequence := by
  intro len s seq rest hl hlen hholds hdraws
  have hr := readPbuf_eq_ok hlen hholds
  have hcount : ∀ b, (transactions b seq).length = (len.toNat + 31) / 32 := fun b => by rw [transactions_length, hlen]
  have hsend : ∀ b, endSend (sendTxs (transactions b seq) (beginRequest s)) =
      { afterRequest 0 0 (BitVec.ofNat 32 ((len.toNat + 31) / 32)) s with
        draws := rest, log := s.log ++ sentOk (transactions b seq) } := fun b => by
    rw [endSend_sendTxs_ok _ s rest (by rw [hcount, hdraws]), hcount]
  exact ⟨(execWrcmd_of_read hl hr).trans (congrArg Host.Outcome.next (hsend 0x00)),
    (execWrdata_of_read hl hr).trans (congrArg Host.Outcome.next (hsend 0x40))⟩

/-- Settles O28: all transactions of a sequence carry its mode byte, which gives the cause. -/
theorem writeRequestsStopAtTheFirstFailure : Obligations.WriteRequestsStopAtTheFirstFailure := by
  intro len s seq rest k hl hlen hholds hdraws
  have hr := readPbuf_eq_ok hlen hholds
  have hhead : ∀ b, ∀ hk : k < (transactions b seq).length, (transactions b seq)[k].head? = some b := fun b hk =>
    transactions_head b seq _ (List.getElem_mem hk)
  refine ⟨fun hk => ?_, fun hk => ?_⟩
  · refine (execWrcmd_of_read hl hr).trans (congrArg Host.Outcome.next ?_)
    rw [endSend_sendTxs_fail _ s k hk rest hdraws, hhead 0x00 hk]
    rfl
  · refine (execWrdata_of_read hl hr).trans (congrArg Host.Outcome.next ?_)
    rw [endSend_sendTxs_fail _ s k hk rest hdraws, hhead 0x40 hk]
    rfl

section
variable {s : State} {rest : List Answer}

theorem closeConnection_idle (ho : s.handleOpen = false) : closeConnection s = done s := by
  simp only [closeConnection, ho, Bool.false_eq_true, if_false]

theorem closeConnection_ok (ho : s.handleOpen = true) (h : s.draws = .ok :: rest) :
    closeConnection s = done (setHandleOpen false { s with draws := rest, log := s.log ++ [.closed .ok] }) := by
  simp only [closeConnection, ho, if_true, busClose, busCall_supplied .closed s h]

theorem closeConnection_fail (ho : s.handleOpen = true) (h : s.draws = .fail :: rest) :
    closeConnection s = raise .closeFailed { s with draws := rest, log := s.log ++ [.closed .fail] } := by
  simp only [closeConnection, ho, if_true, busClose, busCall_supplied .closed s h]

end

/-- Settles O29. -/
theorem closeReleasesTheConnection : Obligations.CloseReleasesTheConnection := by
  intro s hl
  have haccepted : s.life ≠ .uninit := by rcases hl with hl | hl <;> rw [hl] <;> nofun
  have hexec : exec .close s = .next (closeConnection (setLife .closed (beginRequest s))) :=
    execClose_of_accepted haccepted
  refine ⟨fun ho => ?_, fun rest ho hdraws => ?_, fun rest ho hdraws => ?_⟩
  · exact hexec.trans (congrArg Host.Outcome.next (closeConnection_idle ho))
  · exact hexec.trans (congrArg Host.Outcome.next (closeConnection_ok ho hdraws))
  · exact hexec.trans (congrArg Host.Outcome.next (closeConnection_fail ho hdraws))

/-! ## Requests turned away -/

/-- Settles O30. -/
theorem requestsOutsideTheirStateAreRefused : Obligations.RequestsOutsideTheirStateAreRefused := by
  intro s
  refine ⟨fun hl _ _ _ _ _ _ => execInit_of_state hl, fun hl => execClose_of_state hl, fun hl _ _ _ _ _ _ => ?_⟩
  exact ⟨execWrcmd_of_state hl, execWrdata_of_state hl, execRender_of_state hl, execPack_of_state hl⟩

/-- Settles O31. -/
theorem reservedRowsRaiseIllegal : Obligations.ReservedRowsRaiseIllegal := fun _ _ _ _ => ⟨rfl, rfl, rfl⟩

end Sys2Proof.Machine
end

section
/-! The bit unpacker (42_bit_unpacker.md R161 to R166): O33 to O36. -/

namespace Sys2Proof.Machine

/-! ## The shift registers as numbers -/

/-- The sum of `k` bits is below `2 ^ k`. -/
theorem packBits_lt (px : List Pixel) : packBits px < 2 ^ px.length := by
  induction px with
  | nil => simp [packBits]
  | cons b bs ih =>
    have := b.toNat_lt
    simp only [packBits, List.length_cons, pow_succ]
    omega

/-- A number below `2 ^ k` with a bit put in above it. -/
theorem or_bit_above {x k : Nat} (hx : x < 2 ^ k) (b : Bool) : x ||| 2 ^ k * b.toNat = x + 2 ^ k * b.toNat := by
  rw [Nat.or_comm, ← Nat.two_pow_add_eq_or_of_lt hx, Nat.add_comm]

/-- One iteration of the 9-bit datapath: the pixel enters as bit 8, and all is halved. -/
theorem shift9Step_toNat {S : BitVec 9} (hS : S.toNat < 2 ^ 8) (b : Pixel) :
    (shift9Step S b).toNat = (S.toNat + 2 ^ 8 * b.toNat) / 2 := by
  have hb : ((BitVec.ofBool b).setWidth 9 <<< 8).toNat = 2 ^ 8 * b.toNat := by cases b <;> rfl
  rw [shift9Step, BitVec.toNat_ushiftRight, BitVec.toNat_or, hb, or_bit_above hS, Nat.shiftRight_eq_div_pow, pow_one]

/-- The 9-bit datapath after some pixels: their sum, with the first pixels at the bottom. -/
theorem foldl_shift9Step_toNat (px : List Pixel) {S : BitVec 9} (hS : S.toNat < 2 ^ 8) :
    (px.foldl shift9Step S).toNat = (S.toNat + 2 ^ 8 * packBits px) / 2 ^ px.length := by
  induction px generalizing S with
  | nil => simp [packBits]
  | cons b bs ih =>
    have hstep := shift9Step_toNat hS b
    have hlt : (shift9Step S b).toNat < 2 ^ 8 := by
      have := b.toNat_lt
      omega
    rw [List.foldl_cons, ih hlt, hstep, List.length_cons, pow_succ' 2 bs.length, ← Nat.div_div_eq_div_mul]
    congr 1
    rw [packBits]
    omega

/-- The pixel put in as bit 7 of the 8-bit form. -/
theorem or_bit7_toNat {T : BitVec 8} (hT : T.toNat < 2 ^ 7) (b : Pixel) :
    (T ||| ((BitVec.ofBool b).setWidth 8 <<< 7)).toNat = T.toNat + 2 ^ 7 * b.toNat := by
  have hb : ((BitVec.ofBool b).setWidth 8 <<< 7).toNat = 2 ^ 7 * b.toNat := by cases b <;> rfl
  rw [BitVec.toNat_or, hb, or_bit_above hT]

/-- One iteration of the 8-bit form: the pixel enters as bit 7, and all is halved. -/
theorem shift8Step_toNat {T : BitVec 8} (hT : T.toNat < 2 ^ 7) (b : Pixel) :
    (shift8Step T b).toNat = (T.toNat + 2 ^ 7 * b.toNat) / 2 := by
  rw [shift8Step, BitVec.toNat_ushiftRight, or_bit7_toNat hT, Nat.shiftRight_eq_div_pow, pow_one]

/-- The 8-bit form, with a shift after every pixel but the last: one halving less than there are pixels. -/
theorem packByte8_toNat (b : Pixel) (bs : List Pixel) {T : BitVec 8} (hT : T.toNat < 2 ^ 7) :
    (packByte8 (b :: bs) T).toNat = (T.toNat + 2 ^ 7 * packBits (b :: bs)) / 2 ^ bs.length := by
  induction bs generalizing b T with
  | nil => simp [packByte8, packBits, or_bit7_toNat hT]
  | cons b' bs ih =>
    have hstep := shift8Step_toNat hT b
    have hlt : (shift8Step T b).toNat < 2 ^ 7 := by
      have := b.toNat_lt
      omega
    rw [packByte8, ih b' hlt, hstep, List.length_cons, pow_succ' 2 bs.length, ← Nat.div_div_eq_div_mul]
    congr 1
    rw [packBits.eq_2 b]
    omega

/-- Settles O33: on 8 pixels either form halves their sum, put in at its upper end, back down to it. -/
theorem shiftRegisterFormsAgree : Obligations.ShiftRegisterFormsAgree := by
  intro px hlen
  have hlt : packBits px < 2 ^ 8 := hlen ▸ packBits_lt px
  have h9 : (shift9 px).toNat = packBits px := by
    rw [shift9, foldl_shift9Step_toNat px (by decide), hlen]
    simp
  refine ⟨?_, ?_, ?_⟩
  · exact BitVec.eq_of_toNat_eq (by rw [packByte9, packByte, BitVec.toNat_setWidth, h9, BitVec.toNat_ofNat])
  · rw [BitVec.getLsbD, h9, Nat.testBit_lt_two_pow hlt]
  · obtain ⟨b, bs, rfl⟩ : ∃ b bs, px = b :: bs := List.exists_cons_of_length_eq_add_one hlen
    have hbs : bs.length = 7 := by simpa using hlen
    apply BitVec.eq_of_toNat_eq
    rw [packByte8_toNat b bs (by decide), hbs, packByte, BitVec.toNat_ofNat, Nat.mod_eq_of_lt hlt]
    simp

/-! ## The packing as a bijection -/

/-- Settles O34: bit `n` of the byte is pixel `n`. -/
theorem packingIsABijection : Obligations.PackingIsABijection := by
  refine ⟨fun px px' hlen hlen' h => List.ext_getElem (hlen.trans hlen'.symm) fun n hn hn' => ?_, fun b => ?_⟩
  · have hbit : (packByte px).getLsbD n = (packByte px').getLsbD n := by rw [h]
    have h8 : n < 8 := hlen ▸ hn
    simpa [packByte_getLsbD h8, hn, hn'] using hbit
  · refine ⟨(List.range 8).map b.getLsbD, by simp, BitVec.eq_of_getLsbD_eq fun n hn => ?_⟩
    rw [packByte_getLsbD hn]
    simp [hn]

/-! ## PACK -/

/-- Settles O35: the byte is that of the column's pixels. -/
theorem packReadsOneColumn : Obligations.PackReadsOneColumn := by
  intro col pg s hl hx hp hwritten
  have hread := packColumn_ok hwritten
  have hexec := execPack_of_read hl hx hp hread
  generalize columnByte s col.toNat pg.toNat = b at hread hexec
  refine ⟨b, fun n hn => ?_, hexec⟩
  have hcell := (packColumn_getLsbD hread hn).symm.trans (pixelWritten_iff.mp (hwritten n hn))
  exact Option.some.inj hcell

/-- Settles O36. -/
theorem packRefusesOutOfRange : Obligations.PackRefusesOutOfRange := by
  intro col pg s hl hrange
  have hout : ¬ (col.toNat < s.width.toNat ∧ pg.toNat < s.pages.toNat) := by omega
  exact execPack_of_range hl hout

end Sys2Proof.Machine
end

section
/-! The reorder engine (43_render.md): O37 to O43. -/

namespace Sys2Proof.Machine

/-! ## The reads of a frame -/

/-- A read of several elements that succeeds has read each one. -/
theorem readAll_ok_of_mem {α β : Type} {f : α → Except Nat β} {as : List α} {bs : List β} (h : readAll f as = .ok bs)
    {a : α} (ha : a ∈ as) : ∃ b, f a = .ok b := by
  have hmem : f a ∈ bs.map Except.ok := readAll_eq_ok.mp h ▸ List.mem_map_of_mem ha
  obtain ⟨b, -, hb⟩ := List.mem_map.mp hmem
  exact ⟨b, hb.symm⟩

/-- What a successful read of several elements gives at each place. -/
theorem readAll_ok_getElem {α β : Type} {f : α → Except Nat β} {as : List α} {bs : List β} (h : readAll f as = .ok bs)
    {k : Nat} {a : α} (ha : as[k]? = some a) : ∃ b, bs[k]? = some b ∧ f a = .ok b := by
  have hk : (as.map f)[k]? = (bs.map Except.ok)[k]? := by rw [readAll_eq_ok.mp h]
  rw [List.getElem?_map, ha, List.getElem?_map] at hk
  obtain ⟨b, hb, hf⟩ := Option.map_eq_some_iff.mp hk.symm
  exact ⟨b, hb, hf.symm⟩

section
variable {fb : List (Nat × Pixel)} {width pages : Nat}

/-- Variant A's data is read if and only if every column of the frame is. -/
theorem column_of_frameDataA {data : List (List Byte)} (h : frameDataA fb width pages = .ok data) {x p : Nat}
    (hx : x < width) (hp : p < pages) : ∃ b, packColumn fb width x p = .ok b := by
  obtain ⟨d, hd⟩ := readAll_ok_of_mem h (List.mem_range.mpr hp)
  exact readAll_ok_of_mem hd (List.mem_range.mpr hx)

theorem column_of_frameDataB {buf : List Byte} (h : frameDataB fb width pages = .ok buf) {x p : Nat}
    (hx : x < width) (hp : p < pages) : ∃ b, packColumn fb width x p = .ok b :=
  readAll_ok_of_mem h (a := (x, p)) (mem_visitB.mpr ⟨hx, hp⟩)

theorem frameDataA_error {a : Nat} (h : frameDataA fb width pages = .error a) :
    ∃ x p, x < width ∧ p < pages ∧ packColumn fb width x p = .error a := by
  obtain ⟨p, hp, hpage⟩ := readAll_error h
  obtain ⟨x, hx, hcolumn⟩ := readAll_error hpage
  exact ⟨x, p, List.mem_range.mp hx, List.mem_range.mp hp, hcolumn⟩

theorem frameDataB_error {a : Nat} (h : frameDataB fb width pages = .error a) :
    ∃ x p, x < width ∧ p < pages ∧ packColumn fb width x p = .error a := by
  obtain ⟨⟨x, p⟩, hcell, hcolumn⟩ := readAll_error h
  obtain ⟨hx, hp⟩ := mem_visitB.mp hcell
  exact ⟨x, p, hx, hp, hcolumn⟩

end

/-- A frame each of whose columns was read is written. -/
theorem frameWritten_of_columns {s : State}
    (h : ∀ x p, x < s.width.toNat → p < s.pages.toNat → ∃ b, packColumn s.fb s.width.toNat x p = .ok b) :
    FrameWritten s := by
  intro x y hx hy
  obtain ⟨b, hb⟩ := h x (y / 8) hx (by omega)
  rw [← Nat.div_add_mod y 8]
  exact packColumn_written hb _ (Nat.mod_lt _ (by decide))

/-- An unwritten cell that a column's read names is one of the frame's. -/
theorem unwritten_of_column {s : State} {x p a : Nat} (hp : p < s.pages.toNat)
    (h : packColumn s.fb s.width.toNat x p = .error a) :
    ∃ y, y < 8 * s.pages.toNat ∧ ¬ PixelWritten s x y ∧ a = y * s.width.toNat + x := by
  obtain ⟨n, hn, rfl, hnone⟩ := packColumn_error h
  exact ⟨8 * p + n, by omega, by simp [PixelWritten, hnone], rfl⟩

/-! ## RENDER on a written frame is the frame's transactions -/

/-- Variant A's transactions, as Safety names them, are those of its pages' data. -/
theorem frameTransactionsA_eq (s : State) : frameTransactionsA s =
    pageTxs 0 ((List.range s.pages.toNat).map fun p => (List.range s.width.toNat).map fun x => columnByte s x p) := by
  rw [frameTransactionsA, List.range_eq_range' (n := s.pages.toNat), pageTxs_eq]

/-- The operand of a range command for a count in 1..256. -/
theorem lastIndexByte_eq {n : BitVec 16} (h1 : 1 ≤ n.toNat) (h256 : n.toNat ≤ 256) :
    lastIndexByte n = BitVec.ofNat 8 (n.toNat - 1) := if_pos ⟨h1, h256⟩

/-- Variant B's transactions, as Safety names them, are the range command and those of the buffer. -/
theorem frameTransactionsB_eq {s : State} (hv : s.variant = .B) (hg : GeometryLegal s) : frameTransactionsB s =
    transactions 0x00 (rangeCmdB Config.opc s.width s.pages) ++
      transactions 0x40 ((List.range s.pages.toNat).flatMap fun p =>
        (List.range s.width.toNat).reverse.map fun x => columnByte s x p) := by
  obtain ⟨⟨hw1, hw2⟩, -, hp1, hp2⟩ := hg
  rw [hv] at hp2
  rw [transactions_single 0x00 (seq := rangeCmdB _ _ _) (Nat.le_add_left 1 5) (Nat.le_add_right 6 26), rangeCmdB,
    columnAddrBytes, pageAddrBytes, lastIndexByte_eq hw1 hw2, lastIndexByte_eq hp1 hp2]
  rfl

section
variable {fbw : BitVec 9} {s : State} (hl : s.life = .ready) (hw : fbw.toNat = s.width.toNat) (hf : FrameWritten s)
include hl hw hf

theorem execRenderA_of_frameWritten (hv : s.variant = .A) :
    execRender fbw s.height true s = .next (endSend (sendTxs (frameTransactionsA s) (beginRequest s))) := by
  rw [execRenderA_of_read hl hw hv (frameDataA_ok hf), frameTransactionsA_eq]

theorem execRenderB_of_frameWritten (hv : s.variant = .B) (hg : GeometryLegal s) :
    execRender fbw s.height true s = .next (endSend (sendTxs (frameTransactionsB s) (beginRequest s))) := by
  rw [execRenderB_of_read hl hw hv (frameDataB_ok hf), frameTransactionsB_eq hv hg]

theorem execRender_of_frameWritten (hg : GeometryLegal s) :
    execRender fbw s.height true s = .next (endSend (sendTxs (frameTransactions s) (beginRequest s))) := by
  unfold frameTransactions
  cases hv : s.variant with
  | A => exact execRenderA_of_frameWritten hl hw hf hv
  | B => exact execRenderB_of_frameWritten hl hw hf hv hg

end

/-- The number of Variant A's transactions (43_render.md R184). -/
theorem frameTransactionsA_length (s : State) :
    (frameTransactionsA s).length = s.pages.toNat * (1 + (s.width.toNat + 31) / 32) := by
  rw [frameTransactionsA_eq, pageTxs_length _ 0 s.width.toNat (by simp), List.length_map, List.length_range]

/-- The number of Variant B's transactions (43_render.md R184). -/
theorem frameTransactionsB_length (s : State) :
    (frameTransactionsB s).length = 1 + (s.width.toNat * s.pages.toNat + 31) / 32 := by
  rw [frameTransactionsB, List.length_cons, transactions_length, Nat.add_comm]
  simp [List.length_flatMap, Nat.mul_comm]

/-- Settles O37. -/
theorem renderASendsTheFrame : Obligations.RenderASendsTheFrame := by
  intro fbw s rest hl hv hw hf hdraws
  have hcount := frameTransactionsA_length s
  refine (execRenderA_of_frameWritten hl hw hf hv).trans (congrArg Host.Outcome.next ?_)
  rw [endSend_sendTxs_ok _ s rest (by rw [hcount, hdraws]), hcount]

/-- Settles O38. -/
theorem renderBSendsTheFrame : Obligations.RenderBSendsTheFrame := by
  intro fbw s rest hl hv hw hf hg hdraws
  have hcount := frameTransactionsB_length s
  refine (execRenderB_of_frameWritten hl hw hf hv hg).trans (congrArg Host.Outcome.next ?_)
  rw [endSend_sendTxs_ok _ s rest (by rw [hcount, hdraws]), hcount]

/-- Settles O39. -/
theorem renderStopsAtTheFirstFailure : Obligations.RenderStopsAtTheFirstFailure := by
  intro fbw s rest k hk hl hw hf hg hdraws
  exact (execRender_of_frameWritten hl hw hf hg).trans
    (congrArg Host.Outcome.next (endSend_sendTxs_fail _ s k hk rest hdraws))

/-- Settles O40. -/
theorem renderChecksModeThenSize : Obligations.RenderChecksModeThenSize := by
  intro fbw fbh s hl
  refine ⟨execRender_of_mode hl, fun hsize => ?_⟩
  have hother : ¬ (fbw.toNat = s.width.toNat ∧ fbh = s.height) := fun ⟨hw, hh⟩ => hsize.elim (· hw) (· hh)
  exact execRender_of_size hl hother

/-! ## RENDER reads exactly the frame -/

section
variable {fbw : BitVec 9} {s : State} (hl : s.life = .ready) (hw : fbw.toNat = s.width.toNat)
include hl hw

/-- A RENDER that passes its checks goes on, all columns of its frame read, or faults with a cell of a column that could
not be read. -/
theorem execRender_cases_of_accepted :
    ((∃ t, execRender fbw s.height true s = .next t) ∧
      ∀ x p, x < s.width.toNat → p < s.pages.toNat → ∃ b, packColumn s.fb s.width.toNat x p = .ok b) ∨
    ∃ x p a, x < s.width.toNat ∧ p < s.pages.toNat ∧ packColumn s.fb s.width.toNat x p = .error a ∧
      execRender fbw s.height true s = .fault (.unwrittenFb a (setFault (beginRequest s))) := by
  cases hv : s.variant with
  | A =>
    cases hr : frameDataA s.fb s.width.toNat s.pages.toNat with
    | ok data => exact .inl ⟨⟨_, execRenderA_of_read hl hw hv hr⟩, fun x p hx hp => column_of_frameDataA hr hx hp⟩
    | error a =>
      obtain ⟨x, p, hx, hp, hcolumn⟩ := frameDataA_error hr
      exact .inr ⟨x, p, a, hx, hp, hcolumn, execRenderA_of_unwritten hl hw hv hr⟩
  | B =>
    cases hr : frameDataB s.fb s.width.toNat s.pages.toNat with
    | ok buf => exact .inl ⟨⟨_, execRenderB_of_read hl hw hv hr⟩, fun x p hx hp => column_of_frameDataB hr hx hp⟩
    | error a =>
      obtain ⟨x, p, hx, hp, hcolumn⟩ := frameDataB_error hr
      exact .inr ⟨x, p, a, hx, hp, hcolumn, execRenderB_of_unwritten hl hw hv hr⟩

end

/-- Settles O41. -/
theorem renderReadsExactlyTheFrame : Obligations.RenderReadsExactlyTheFrame := by
  intro fbw s hl hw
  rcases execRender_cases_of_accepted hl hw with ⟨hnext, hcolumns⟩ | ⟨x, p, a, hx, hp, hcolumn, hfault⟩
  · exact ⟨fun _ => frameWritten_of_columns hcolumns, fun _ => hnext⟩
  · obtain ⟨y, hy, hunwritten, -⟩ := unwritten_of_column hp hcolumn
    exact ⟨fun ⟨t, ht⟩ => absurd (hfault.symm.trans ht) nofun, fun hf => absurd (hf x y hx hy) hunwritten⟩

/-! ## The two variants' data -/

/-- Settles O43: byte `k` is read from the `k`-th (column, page) pair. -/
theorem variantBBufferInClosedForm : Obligations.VariantBBufferInClosedForm := by
  intro fb width pages buf h
  have hlen := frameDataB_length h
  refine ⟨hlen, fun k hk => ?_⟩
  obtain ⟨b, hb, hcolumn⟩ := readAll_ok_getElem h (visitB_getElem? width pages k (hlen ▸ hk))
  rw [List.getElem?_eq_getElem hk] at hb
  rwa [Option.some.inj hb]

/-- Variant A's byte for a column of a page. -/
theorem frameDataA_getElem? {fb : List (Nat × Pixel)} {width pages : Nat} {data : List (List Byte)}
    (h : frameDataA fb width pages = .ok data) {x p : Nat} (hx : x < width) (hp : p < pages) :
    ∃ b, packColumn fb width x p = .ok b ∧ (data[p]?.bind fun d => d[x]?) = some b := by
  obtain ⟨d, hd, hpage⟩ := readAll_ok_getElem h (List.getElem?_range hp)
  obtain ⟨b, hb, hcolumn⟩ := readAll_ok_getElem hpage (List.getElem?_range hx)
  exact ⟨b, hcolumn, by rw [hd, Option.bind_some, hb]⟩

/-- Settles O42: the closed form of Variant B's buffer, at the mirrored place. -/
theorem variantsMirrorEachPage : Obligations.VariantsMirrorEachPage := by
  intro fb width pages data buf hA hB
  obtain ⟨hlen, hclosed⟩ := variantBBufferInClosedForm fb width pages buf hB
  refine ⟨hlen, fun p x hp hx => ?_⟩
  obtain ⟨b, hcolumn, hdata⟩ := frameDataA_getElem? hA hx hp
  have hplace : p * width + (width - 1 - x) < buf.length := by
    have hpage : (p + 1) * width ≤ pages * width := Nat.mul_le_mul_right width hp
    rw [hlen, Nat.mul_comm width]
    rw [Nat.succ_mul] at hpage
    omega
  have hmod : (p * width + (width - 1 - x)) % width = width - 1 - x := by
    rw [Nat.mul_add_mod', Nat.mod_eq_of_lt (by omega)]
  have hdiv : (p * width + (width - 1 - x)) / width = p := by
    rw [Nat.mul_comm, Nat.mul_add_div (by omega), Nat.div_eq_of_lt (by omega), Nat.add_zero]
  have hmirror := hclosed _ hplace
  rw [hmod, hdiv, show width - 1 - (width - 1 - x) = x by omega, hcolumn] at hmirror
  refine ⟨b, hcolumn, hdata, ?_⟩
  rw [List.getElem?_eq_getElem hplace, Except.ok.inj hmirror]

end Sys2Proof.Machine
end

section
/-! The rows of the wire vocabulary (40_command_vocabulary.md R103 to R124, 30_encoding.md R83): O44 to O49. -/

namespace Sys2Proof.Machine

/-! ## What each row emits -/

/-- A row that emits bytes. -/
theorem next_emitCommand (bs : List Byte) (s : State) :
    (.next (emitCommand bs s) : Result) = .next (afterEmit bs s) := by
  rw [emitCommand_eq]

section
variable (s : State)

theorem exec_displayOff : exec .displayOff s = .next (afterEmit (displayOffBytes Config.opc) s) :=
  next_emitCommand _ s
theorem exec_setMemoryMode :
    exec .setMemoryMode s = .next (afterEmit (setMemoryModeBytes Config.opc s.variant) s) := next_emitCommand _ s
theorem exec_setHighColumn : exec .setHighColumn s = .next (afterEmit (setHighColumnBytes Config.opc) s) :=
  next_emitCommand _ s
theorem exec_setLowColumn : exec .setLowColumn s = .next (afterEmit (setLowColumnBytes Config.opc) s) :=
  next_emitCommand _ s
theorem exec_setContrast :
    exec .setContrast s = .next (afterEmit (setContrastBytes Config.opc s.variant) s) := next_emitCommand _ s
theorem exec_segmentRemap : exec .segmentRemap s = .next (afterEmit (segmentRemapBytes Config.opc) s) :=
  next_emitCommand _ s
theorem exec_normalDisplay : exec .normalDisplay s = .next (afterEmit (normalDisplayBytes Config.opc) s) :=
  next_emitCommand _ s
theorem exec_setMultiplex : exec .setMultiplex s = .next (afterEmit (setMultiplexBytes Config.opc) s) :=
  next_emitCommand _ s
theorem exec_displayAllOnResume :
    exec .displayAllOnResume s = .next (afterEmit (displayAllOnResumeBytes Config.opc) s) := next_emitCommand _ s
theorem exec_setDisplayOffset :
    exec .setDisplayOffset s = .next (afterEmit (setDisplayOffsetBytes Config.opc) s) := next_emitCommand _ s
theorem exec_setClockDiv :
    exec .setClockDiv s = .next (afterEmit (setClockDivBytes Config.opc s.variant) s) := next_emitCommand _ s
theorem exec_setPrecharge :
    exec .setPrecharge s = .next (afterEmit (setPrechargeBytes Config.opc s.variant) s) := next_emitCommand _ s
theorem exec_setComPins : exec .setComPins s = .next (afterEmit (setComPinsBytes Config.opc) s) :=
  next_emitCommand _ s
theorem exec_setVcomDetect :
    exec .setVcomDetect s = .next (afterEmit (setVcomDetectBytes Config.opc s.variant) s) := next_emitCommand _ s
theorem exec_chargePump : exec .chargePump s = .next (afterEmit (chargePumpBytes Config.opc) s) :=
  next_emitCommand _ s
theorem exec_displayOn : exec .displayOn s = .next (afterEmit (displayOnBytes Config.opc) s) :=
  next_emitCommand _ s
theorem exec_setStartLine : exec .setStartLine s = .next (afterEmit (setStartLineBytes Config.opc) s) :=
  next_emitCommand _ s
theorem exec_comScanDec : exec .comScanDec s = .next (afterEmit (comScanDecBytes Config.opc) s) :=
  next_emitCommand _ s
theorem exec_columnAddr : exec .columnAddr s = .next (afterEmit (columnAddrBytes Config.opc s.width) s) :=
  next_emitCommand _ s
theorem exec_pageAddr : exec .pageAddr s = .next (afterEmit (pageAddrBytes Config.opc s.pages) s) :=
  next_emitCommand _ s
theorem exec_pageSelect (p : BitVec 4) :
    exec (.pageSelect p) s = .next (afterEmit (pageSelectBytes p.toNat) s) := next_emitCommand _ s
theorem exec_pageColLo : exec .pageColLo s = .next (afterEmit pageColLoBytes s) := next_emitCommand _ s
theorem exec_pageColHi : exec .pageColHi s = .next (afterEmit pageColHiBytes s) := next_emitCommand _ s

end

/-- An emission keeps the configured variant. -/
theorem afterEmit_variant (bs : List Byte) (s : State) : (afterEmit bs s).variant = s.variant := rfl

/-! ## The statements -/

/-- Settles O44. -/
theorem fixedOpcodesEmitTheirBytes : Obligations.FixedOpcodesEmitTheirBytes := fun s =>
  ⟨exec_displayOff s, exec_setHighColumn s, exec_setLowColumn s, exec_segmentRemap s, exec_normalDisplay s,
    exec_setMultiplex s, exec_displayAllOnResume s, exec_setDisplayOffset s, exec_setComPins s, exec_chargePump s,
    exec_displayOn s, exec_setStartLine s, exec_comScanDec s⟩

/-- Settles O45, for each variant. -/
theorem variantOpcodesEmitTheirBytes : Obligations.VariantOpcodesEmitTheirBytes := by
  intro s
  rw [exec_setMemoryMode, exec_setContrast, exec_setClockDiv, exec_setPrecharge, exec_setVcomDetect]
  cases s.variant <;> exact ⟨rfl, rfl, rfl, rfl, rfl⟩

/-- The operand of a range command for a count in 1..256, as a number. -/
theorem lastIndexByte_toNat {n : BitVec 16} (h1 : 1 ≤ n.toNat) (h256 : n.toNat ≤ 256) :
    (lastIndexByte n).toNat = n.toNat - 1 := by
  rw [lastIndexByte_eq h1 h256, BitVec.toNat_ofNat]
  omega

/-- Settles O46. -/
theorem rangeOpcodesEmitTheirBytes : Obligations.RangeOpcodesEmitTheirBytes := fun s =>
  ⟨⟨lastIndexByte s.width, exec_columnAddr s, lastIndexByte_toNat⟩,
    ⟨lastIndexByte s.pages, exec_pageAddr s, lastIndexByte_toNat⟩⟩

/-- The page-select byte of a page number of 4 bits. -/
theorem pageSelectBytes_eq (p : BitVec 4) : pageSelectBytes p.toNat = [0xB0 + p.setWidth 8] := by
  rw [pageSelectBytes, BitVec.ofNat_toNat]
  rfl

/-- Settles O47. -/
theorem pageSelectRowsEmitTheirBytes : Obligations.PageSelectRowsEmitTheirBytes := by
  intro p s
  refine ⟨by rw [exec_pageSelect, pageSelectBytes_eq], exec_pageColLo s, exec_pageColHi s, ?_, ?_⟩
  · simp only [execRows, exec_pageSelect, exec_pageColLo, exec_pageColHi, afterEmit_afterEmit, pageSelA]
  · rw [pageSelA, pageSelectBytes_eq]
    rfl

/-- Settles O48. -/
theorem modePrefixRowsBeginTheirKind : Obligations.ModePrefixRowsBeginTheirKind := fun _ => ⟨rfl, rfl, rfl, rfl⟩

/-- Each row of an init table emits its element, after those of the rows before it. -/
theorem execRows_initRows {v : Variant} {s : State} (hv : s.variant = v) :
    execRows (initRows v) s = .next (afterEmit (initTable Config.opc v) s) := by
  cases v with
  | A =>
    simp only [initRows, execRows, exec_displayOff, exec_setMemoryMode, exec_setHighColumn, exec_setLowColumn,
      exec_setContrast, exec_segmentRemap, exec_normalDisplay, exec_setMultiplex, exec_displayAllOnResume,
      exec_setDisplayOffset, exec_setClockDiv, exec_setPrecharge, exec_setComPins, exec_setVcomDetect,
      exec_chargePump, exec_displayOn, afterEmit_variant, hv, afterEmit_afterEmit, initTable]
  | B =>
    simp only [initRows, execRows, exec_displayOff, exec_setMemoryMode, exec_setContrast, exec_segmentRemap,
      exec_normalDisplay, exec_setMultiplex, exec_displayAllOnResume, exec_setDisplayOffset, exec_setClockDiv,
      exec_setPrecharge, exec_setComPins, exec_setVcomDetect, exec_chargePump, exec_displayOn, exec_setStartLine,
      exec_comScanDec, afterEmit_variant, hv, afterEmit_afterEmit, initTable]

/-- Settles O49: the first row begins an empty command sequence, which the rows fill. -/
theorem rowsInTableOrderStageTheInitTable : Obligations.RowsInTableOrderStageTheInitTable :=
  fun s => execRows_initRows (s := beginSeq .command s) rfl

end Sys2Proof.Machine
end

section
/-! Requests that read unwritten cells, and requests that end whatever the transport answers (20_memory.md R44,
60_exceptions.md R205, R210): O50 and O51. -/

namespace Sys2Proof.Machine

/-! ## Unwritten cells -/

/-- A read of PBUF that meets an unwritten byte names one. -/
theorem readPbuf_of_unwritten {pbuf : List Host.Cell} {n : Nat} (h : ∃ a, a < n ∧ Memory.get pbuf a = none) :
    ∃ a, a < n ∧ Memory.get pbuf a = none ∧ readPbuf pbuf n = .error a := by
  cases hr : readPbuf pbuf n with
  | error a =>
    obtain ⟨ha, hnone⟩ := readPbuf_error hr
    exact ⟨a, ha, hnone, rfl⟩
  | ok bs =>
    obtain ⟨a, ha, hnone⟩ := h
    obtain ⟨b, hb⟩ := readAll_ok_of_mem hr (List.mem_range.mpr ha)
    rw [readCell_eq_ok, hnone] at hb
    cases hb

/-- A column's read that meets an unwritten pixel names one. -/
theorem packColumn_of_unwritten {s : State} {x p : Nat} (h : ∃ n, n < 8 ∧ ¬ PixelWritten s x (8 * p + n)) :
    ∃ n, n < 8 ∧ ¬ PixelWritten s x (8 * p + n) ∧
      packColumn s.fb s.width.toNat x p = .error ((8 * p + n) * s.width.toNat + x) := by
  cases hr : packColumn s.fb s.width.toNat x p with
  | error a =>
    obtain ⟨n, hn, rfl, hnone⟩ := packColumn_error hr
    exact ⟨n, hn, by simp [PixelWritten, hnone], rfl⟩
  | ok b =>
    obtain ⟨n, hn, hunwritten⟩ := h
    exact absurd (packColumn_written hr n hn) hunwritten

/-- Settles O50, request by request. -/
theorem unwrittenInputsFault : Obligations.UnwrittenInputsFault := by
  intro s
  refine ⟨fun len hl hex => ?_, fun var width height bus addr nextra hl hlegal hex => ?_,
    fun col pg hl hx hp hex => ?_, fun fbw hl hw hframe => ?_⟩
  · obtain ⟨a, ha, hnone, hr⟩ := readPbuf_of_unwritten hex
    exact ⟨a, ha, hnone, execWrcmd_of_unwritten hl hr, execWrdata_of_unwritten hl hr⟩
  · obtain ⟨a, ha, hnone, hr⟩ := readPbuf_of_unwritten hex
    exact ⟨a, ha, hnone, execInit_of_unwritten hl ((geometryOk_iff var height).mpr hlegal) hr⟩
  · obtain ⟨n, hn, hunwritten, hr⟩ := packColumn_of_unwritten hex
    exact ⟨n, hn, hunwritten, execPack_of_unwritten hl hx hp hr⟩
  · rcases execRender_cases_of_accepted hl hw with ⟨-, hcolumns⟩ | ⟨x, p, a, hx, hp, hcolumn, hfault⟩
    · exact absurd (frameWritten_of_columns hcolumns) hframe
    · obtain ⟨y, hy, hunwritten, rfl⟩ := unwritten_of_column hp hcolumn
      exact ⟨x, y, hx, hy, hunwritten, hfault⟩

/-! ## Whatever the transport answers -/

/-- A request that sends transactions of one mode byte while it stays `READY` ends `OK`, or with the write error of that
kind. -/
theorem endSend_result {b : Byte} {ts : List (List Byte)} (hts : AllHead b ts) {s : State} (hl : s.life = .ready) :
    (endSend (sendTxs ts (beginRequest s))).life = .ready ∧
      (((endSend (sendTxs ts (beginRequest s))).result = 0 ∧ (endSend (sendTxs ts (beginRequest s))).cause = 0) ∨
        ((endSend (sendTxs ts (beginRequest s))).result = 3 ∧
          (endSend (sendTxs ts (beginRequest s))).cause = if b = 0x00 then 1 else 2)) := by
  obtain ⟨r, es, d, f, hd, hsend⟩ := sendTxs_spec ts (beginRequest s)
  rw [hsend]
  cases r with
  | ok => exact ⟨hl, .inl ⟨rfl, rfl⟩⟩
  | fail =>
    have herr : failErr (afterEvents es.length es d f (beginRequest s)).log = _ := failErr_append hd hts s.log
    simp only [endSend, herr]
    refine ⟨hl, .inr ?_⟩
    split <;> exact ⟨rfl, rfl⟩

/-- Settles O51. -/
theorem acceptedRequestsEndWhateverTheTransportAnswers :
    Obligations.AcceptedRequestsEndWhateverTheTransportAnswers := by
  intro s n seq hlen hholds
  have hr := readPbuf_eq_ok hlen hholds
  refine ⟨fun var width height bus addr hl hlegal => ?_, fun hl => ?_, fun hl => ?_⟩
  · refine ⟨_, execInit_of_read hl ((geometryOk_iff var height).mpr hlegal) hr, ?_⟩
    rcases initConnect_cases var bus addr seq (loadConfig var width height bus addr (beginRequest s)) rfl with
      ⟨d, f, h⟩ | ⟨r, es, d, f, -, ⟨-, h⟩ | ⟨-, h⟩⟩
    · rw [h]
      exact .inr (.inl ⟨rfl, rfl, rfl, rfl⟩)
    · rw [h]
      exact .inr (.inr ⟨rfl, rfl, rfl, rfl⟩)
    · rw [h]
      exact .inl ⟨rfl, rfl, rfl, rfl⟩
  · exact ⟨_, execWrcmd_of_read hl hr, endSend_result (transactions_head 0x00 seq) hl⟩
  · exact ⟨_, execWrdata_of_read hl hr, endSend_result (transactions_head 0x40 seq) hl⟩

end Sys2Proof.Machine
end

section
/-! The step (41_sequencer.md R141): the requests that the host launches, its accesses to the registers and the memories,
and reset: O5 to O18. -/

namespace Sys2Proof.Machine

variable {s : State} {ms : List Move}

/-! ## Running a request, and an emission -/

/-- A host write of `OPW` launches the request of the words then in the registers. -/
theorem step_opwWrite {opw : Word} (h : s.moves = .regWrite 0x00 opw :: ms) :
    step s = launch { s with moves := ms, opw := opw } :=
  step_move h

/-- A host write of `OPW` whose words decode runs their instruction. -/
theorem step_opwWrite_of_decode {opw : Word} {i : Instr} (h : s.moves = .regWrite 0x00 opw :: ms)
    (hd : decodeRequest opw s.arg = .ok i) : step s = exec i { s with moves := ms, opw := opw } :=
  (step_opwWrite h).trans (launch_of_decode (s := { s with moves := ms, opw := opw }) hd)

/-- An emission whose byte decodes at its place runs its row. -/
theorem step_emit_of_decode {pos : WirePos} {b : Byte} {i : Instr} (h : s.moves = .emit pos b :: ms)
    (hd : decodeWire pos b = .ok i) : step s = exec i { s with moves := ms } := by
  rw [step_move h]
  simp only [applyMove, emitByte, hd]

/-- Settles O5, for each of the three reserved rows. -/
theorem reservedOpIsIllegal : Obligations.ReservedOpIsIllegal := by
  intro s opw ms h hop
  rw [← opField_toNat] at hop
  rcases reservedOp_cases (opw := opw) (by omega) with h0 | h7 | h8
  · exact step_opwWrite_of_decode h (decodeRequest_reservedOp0 h0)
  · exact step_opwWrite_of_decode h (decodeRequest_reservedOp7 h7)
  · exact step_opwWrite_of_decode h (decodeRequest_reservedOp8F h8)

/-- Settles O6: such words decode to no request. -/
theorem reservedFieldIsIllegal : Obligations.ReservedFieldIsIllegal := by
  intro s opw ms h hop hfield
  obtain ⟨h1, h6⟩ := hop
  have hd : decodeRequest opw s.arg = .error .reservedField :=
    decodeRequest_reservedField (by rwa [opField_toNat]) (by rwa [opField_toNat])
      ((mustBeZeroOk_eq_false_iff h1 h6).mpr hfield)
  exact (step_opwWrite h).trans (launch_of_error (s := { s with moves := ms, opw := opw }) hd)

/-- Settles O7. -/
theorem stepRunsTheDecodedInstruction : Obligations.StepRunsTheDecodedInstruction := fun _ _ _ =>
  ⟨fun _ h hd => step_opwWrite_of_decode h hd, fun _ _ h hd => step_emit_of_decode h hd⟩

/-- A table word that decodes is a code that decodes. -/
theorem decode_tableCode {nbits w : Nat} {i : Instr} (h : decodeTableWord nbits w = some i) :
    decode (tableCode nbits w) = .ok i := by
  unfold decodeTableWord at h
  split at h <;> simp_all

/-- Settles O8: the placed move is the next one. -/
theorem fetchWordRunsNext : Obligations.FetchWordRunsNext := by
  intro s nbits w i h
  have hd := decode_tableCode h
  refine ⟨fun opw arg hcode => ?_, fun pos b hcode => ?_⟩
  · rw [hcode] at hd
    rw [State.withFetchWord, hcode]
    exact step_opwWrite_of_decode (s := placeCode (.request opw arg) s) rfl hd
  · rw [hcode] at hd
    rw [State.withFetchWord, hcode]
    exact step_emit_of_decode (s := placeCode (.wire pos b) s) rfl hd

/-- A host request is encoded by two words. -/
theorem encode_request {i : Instr} (h : isRequest i = true) : ∃ opw arg, encode i = .request opw arg := by
  cases i <;> simp_all [isRequest, encode]

/-- Settles O9: the second write's words decode to the request they encode. -/
theorem assembledRequestRuns : Obligations.AssembledRequestRuns := by
  intro i s ms hwf hi hmoves
  obtain ⟨opw, arg, hcode⟩ := encode_request hi
  have hd : decodeRequest opw arg = .ok i := by
    have hdecode := decodeInvertsEncode i hwf
    rwa [hcode] at hdecode
  have hmoves' : s.moves = .regWrite 0x04 arg :: .regWrite 0x00 opw :: ms := by
    rw [hmoves, assembleRequest, hcode]
    rfl
  exact ⟨opw, arg, hcode, step_move hmoves', step_opwWrite_of_decode rfl hd⟩

/-! ## What reaches the bus -/

/-- A host write of another register than `OPW` leaves the bus log. -/
theorem hostWriteReg_log {offset : Nat} {v : Word} {t : State} (ho : offset ≠ 0x00)
    (h : hostWriteReg offset v s = .next t) : t.log = s.log := by
  unfold hostWriteReg at h
  split at h
  · cases h
  · split at h <;> cases h <;> rfl

/-- A move other than a host write of `OPW` and reset leaves the bus log. -/
theorem applyMove_log {m : Move} {t : State} (hopw : ∀ v, m ≠ .regWrite 0x00 v) (hreset : m ≠ .reset)
    (h : applyMove m s = .next t) : t.log = s.log := by
  cases m <;> simp only [applyMove] at h
  case regWrite offset v => exact hostWriteReg_log (by rintro rfl; exact hopw v rfl) h
  case regRead offset =>
    unfold hostReadReg at h
    split at h <;> cases h
    rfl
  case fbRead index =>
    unfold hostReadFb at h
    split at h <;> cases h
    rfl
  case pbufWrite index bytes =>
    unfold hostWritePbuf at h
    split at h <;> cases h
    rfl
  case pbufRead index =>
    unfold hostReadPbuf at h
    split at h
    · split at h <;> cases h
      rfl
    · cases h
  case emit pos b =>
    unfold emitByte at h
    split at h
    · rename_i hd
      obtain ⟨g, rfl⟩ := wire_next (decodeWire_not_request hd) h
      rfl
    · cases h
  case reset => exact absurd rfl hreset
  case fbWrite | fbClear | fbSet | answers => cases h; rfl

/-- Settles O10. -/
theorem onlyRequestsReachTheBus : Obligations.OnlyRequestsReachTheBus := by
  refine ⟨fun s h => step_idle h, fun s t m ms hm h hopw hreset => ?_⟩
  rw [step_move hm] at h
  exact applyMove_log (s := { s with moves := ms }) hopw hreset h

/-! ## Registers -/

/-- A word whose upper bits are reserved and 0, as a number. -/
theorem zero_append_toNat (m : Nat) {n : Nat} (x : BitVec n) : (0#m ++ x).toNat = x.toNat := by
  simp only [BitVec.toNat_append, BitVec.toNat_ofNat, Nat.zero_mod, Nat.zero_shiftLeft, Nat.zero_or]

/-- Settles O11: each register's word is the sum of its fields, each at its bits. -/
theorem registerFieldsReadInPlace : Obligations.RegisterFieldsReadInPlace := by
  intro s
  refine ⟨?_, ?_, geomWord_toNat s.height s.width, zero_append_toNat 16 s.pages, zero_append_toNat 24 s.packOut⟩
  · refine (statusWord_toNat s.cause s.result (BitVec.ofBool s.handleOpen) s.life.code).trans ?_
    rw [BitVec.toNat_ofBool]
    cases s.life <;> rfl
  · refine (cfgWord_toNat s.devAddr s.busIndex (variantBit s.variant)).trans ?_
    cases s.variant <;> rfl

/-- No register stands at `0x20` and above (10_state.md R21). -/
theorem readReg_high {offset : Nat} (h : 0x20 ≤ offset) : readReg offset s = 0 := by
  unfold readReg
  rw [if_neg (by omega), if_neg (by omega), if_neg (by omega), if_neg (by omega), if_neg (by omega), if_neg (by omega),
    if_neg (by omega), if_neg (by omega)]

/-- A register read, with `OPW`, `ARG` and `TXCOUNT` named. -/
theorem readReg_eq (offset : Nat) (s : State) : readReg offset s =
    if offset = 0x00 then s.opw else if offset = 0x04 then s.arg
    else if 0x20 ≤ offset then 0
    else if offset = 0x1C then s.txCount else readReg offset s := by
  split_ifs with h0 h4 hhigh h1C
  · rw [h0]
    rfl
  · rw [h4]
    rfl
  · exact readReg_high hhigh
  · rw [h1C]
    rfl
  · rfl

/-- Settles O12. -/
theorem hostReadHasNoSideEffect : Obligations.HostReadHasNoSideEffect := by
  intro s offset ms h haligned
  rw [step_move h, ← readReg_eq offset s]
  exact if_neg (not_not.mpr haligned)

/-- Settles O13. -/
theorem hostWriteStoresArgOnly : Obligations.HostWriteStoresArgOnly := by
  intro s offset v ms h haligned
  rw [step_move h]
  refine ⟨fun harg => by subst harg; rfl, fun hhigh => ?_⟩
  simp only [applyMove, hostWriteReg]
  rw [if_neg (not_not.mpr haligned), if_neg (by omega), if_neg (by omega)]

/-- Settles O14. -/
theorem unalignedRegisterAccessIsRefused : Obligations.UnalignedRegisterAccessIsRefused :=
  fun _ _ _ _ hunaligned => ⟨fun h => (step_move h).trans (if_pos hunaligned),
    fun h => (step_move h).trans (if_pos hunaligned)⟩

/-- Settles O15. -/
theorem resetSetsEveryValue : Obligations.ResetSetsEveryValue := fun _ _ h =>
  ⟨_, step_move h, ⟨rfl, rfl, rfl, rfl, rfl, rfl⟩, ⟨rfl, rfl, rfl, rfl, rfl, rfl⟩, ⟨rfl, rfl, rfl, rfl⟩,
    fun _ => ⟨rfl, rfl⟩⟩

/-! ## Memories -/

/-- Settles O16: a read after a write, of one cell and of a run of cells. -/
theorem hostMemoryWriteIsRead : Obligations.HostMemoryWriteIsRead := by
  intro s t ms hstep
  refine ⟨fun i px h => ?_, fun i bs h => ?_⟩ <;> rw [step_move h] at hstep
  · cases hstep
    exact ⟨fun a => Memory.get_set s.fb i px a, rfl⟩
  · simp only [applyMove, hostWritePbuf] at hstep
    split at hstep <;> cases hstep
    exact ⟨fun a => Memory.get_setRun bs s.pbuf i a, rfl⟩

/-- A read of a written cell. -/
theorem readCell_of_written {α : Type} {m : List (Nat × α)} {a : Nat} {v : α} (h : Memory.get m a = some v) :
    readCell m a = .ok v := readCell_eq_ok.mpr h

/-- A read of an unwritten cell. -/
theorem readCell_of_unwritten {α : Type} {m : List (Nat × α)} {a : Nat} (h : Memory.get m a = none) :
    readCell m a = .error a := readCell_eq_error.mpr ⟨rfl, h⟩

/-- Settles O17. -/
theorem hostMemoryReadGivesTheCell : Obligations.HostMemoryReadGivesTheCell := by
  intro s ms
  refine ⟨fun i h => ⟨fun px hcell => ?_, fun hcell => ?_⟩, fun i h hi => ⟨fun b hcell => ?_, fun hcell => ?_⟩⟩ <;>
    rw [step_move h]
  · simp only [applyMove, hostReadFb, readCell_of_written hcell]
    cases px <;> rfl
  · simp only [applyMove, hostReadFb, readCell_of_unwritten hcell]
    rfl
  · simp only [applyMove, hostReadPbuf, readCell_of_written hcell]
    exact if_pos hi
  · simp only [applyMove, hostReadPbuf, readCell_of_unwritten hcell]
    exact if_pos hi

/-- Settles O18: a run of zeros from cell 0, and one cell. -/
theorem canvasActionsWriteFb : Obligations.CanvasActionsWriteFb := by
  intro s ms
  refine ⟨fun h => ⟨_, step_move h, fun a => ?_⟩, fun x y h => ⟨_, step_move h, fun a => ?_⟩⟩
  · rw [Memory.get_setRun]
    simp only [Nat.zero_le, Nat.zero_add, true_and, List.length_replicate, Nat.sub_zero]
    split
    · rw [List.getElem?_replicate_of_lt ‹_›]
    · rfl
  · exact Memory.get_set s.fb _ true a

end Sys2Proof.Machine
end
